-- ==== Sys2Proof/Word.lean ====
section
/-! DEFINITION. The word types of the CORE (00_scope.md R6, R8; 10_state.md R20). -/

namespace Sys2Proof

/-- Half of a memory word. No instruction moves one (20_memory.md R65); the memories are kept in
bytes so that they have the host's plain form (`Host.Cell`). -/
abbrev Byte := BitVec 8

/-- An unsigned 16-bit value: a register, `pc`, `ir`, `sp`, a memory word, an ALU result
(00_scope.md R8, parameter XLEN). -/
abbrev Word := BitVec 16

/-- The number of a general register, 0 to 7 (10_state.md R20, parameter NREG). A 3-bit field of
the encoding has no other value, so the index check of R22 is discharged by this type. -/
abbrev RegIdx := Fin 8

end Sys2Proof
end

