-- ==== Sys2Proof/Config.lean ====
section
/-! DEFINITION. The implementation parameters of 00_scope.md R6, as a record. Their values for this
hardware stand in Machine/Parameters.lean. -/

namespace Sys2Proof

/-- Which flag JLT tests (41_branch.md R134): the open parameter `JLT_COND`. -/
inductive JltCond where
  /-- `N = 1 and Z = 0`. -/
  | neg
  /-- `C = 1 and Z = 0`. -/
  | carry
deriving DecidableEq, Repr

/-- The parameter table of 00_scope.md R6, one field per row, in its order. -/
structure Config where
  /-- `XLEN`: width of registers, pc, ir, sp, words and the ALU. -/
  xlen : Nat
  /-- `NREG`: number of general registers. -/
  nreg : Nat
  /-- `PM_WORDS`: program memory capacity in words. -/
  pmWords : Nat
  /-- `DM_WORDS`: data memory capacity in words. -/
  dmWords : Nat
  /-- `STACK_BASE`: low end of the stack address window. -/
  stackBase : Nat
  /-- `STACK_TOP`: high end of the stack address window, the empty boundary. -/
  stackTop : Nat
  /-- `STACK_SLOTS`: size of the stack backing sequence. -/
  stackSlots : Nat
  /-- `STACK_STEP`: stack pointer step per push or pop. -/
  stackStep : Nat
  /-- `PC_STEP`: pc advance per executed word. -/
  pcStep : Nat
  /-- `HALT_WORD`: the halt sentinel and the fill value of program memory. -/
  haltWord : Word
  /-- `SP_RESET`: stack pointer at reset. -/
  spReset : Word
  /-- `PC_RESET`: pc at reset. -/
  pcReset : Word
  /-- `JLT_COND`: which flag JLT tests. -/
  jltCond : JltCond
deriving DecidableEq, Repr

end Sys2Proof
end

