-- ==== Sys2Proof/Machine/Parameters.lean ====
section
/-! DEFINITION. The values of the parameters for this hardware (00_scope.md R6). They stand in a
file of Machine/ because the spec calls its own literals unaudited (log entry 4): every rule of the
model is written in terms of the names, so a corrected literal is corrected here alone. -/

namespace Sys2Proof.Machine

/-- This hardware's parameter values, the document's literals (00_scope.md R6, decision D3).
`spReset` is the spec's decision D4 (log entry 3) and `jltCond` its decision D7 (log entry 5). -/
def hw : Config where
  xlen := 16
  nreg := 8
  pmWords := 1024
  dmWords := 256
  stackBase := 0x8100
  stackTop := 0x8200
  stackSlots := 256
  stackStep := 2
  pcStep := 2
  haltWord := 0xFFFF#16
  spReset := 0x8200#16
  pcReset := 0x0000#16
  jltCond := .neg

end Sys2Proof.Machine
end

