-- ==== Sys2Proof/Syntax.lean ====
section
/-! DEFINITION. The instructions: one constructor per row of spec/opcode_table.json, with the
operands its rule names (30_encoding.md R81, R87). Ignored bits (R91) are no operand. -/

namespace Sys2Proof

/-- What a 16-bit word can be (30_encoding.md R85): one of the 24 instructions of R87, the halt
sentinel, or a word of the unimplemented class. -/
inductive Instr where
  /-- JMP d, 41_branch.md R132. -/
  | jmp (disp : BitVec 9)
  /-- JEQ d, 41_branch.md R133. -/
  | jeq (disp : BitVec 9)
  /-- JLT d, 41_branch.md R134. -/
  | jlt (disp : BitVec 9)
  /-- JGT d, 41_branch.md R135. -/
  | jgt (disp : BitVec 9)
  /-- NOP, 42_opcode0_stack_cmp.md R150. -/
  | nop
  /-- PUSH Rn, 42_opcode0_stack_cmp.md R151. -/
  | push (rn : RegIdx)
  /-- POP Rd, 42_opcode0_stack_cmp.md R152. -/
  | pop (rd : RegIdx)
  /-- CMP Rm, Rn, 42_opcode0_stack_cmp.md R154. -/
  | cmp (rm rn : RegIdx)
  /-- MOV Rd, #imm, 43_move_memory.md R170. -/
  | movImm (rd : RegIdx) (imm : Byte)
  /-- MOV Rd, Rm, 43_move_memory.md R171. -/
  | movReg (rd rm : RegIdx)
  /-- STR [Rm], #imm, 43_move_memory.md R172; in a word, rm is imm[7:5] (30_encoding.md R92). -/
  | strImm (rm : RegIdx) (imm : Byte)
  /-- STR [Rm], Rn, 43_move_memory.md R173. -/
  | strReg (rm rn : RegIdx)
  /-- LDR Rd, [Rm], 43_move_memory.md R174. -/
  | ldr (rd rm : RegIdx)
  /-- ADD Rd, Rm, Rn, 44_arith.md R192. -/
  | add (rd rm rn : RegIdx)
  /-- SUB Rd, Rm, Rn, 44_arith.md R193. -/
  | sub (rd rm rn : RegIdx)
  /-- MUL Rd, Rm, Rn, 44_arith.md R194. -/
  | mul (rd rm rn : RegIdx)
  /-- AND Rd, Rm, Rn, 45_logic.md R210. -/
  | and (rd rm rn : RegIdx)
  /-- OR Rd, Rm, Rn, 45_logic.md R211. -/
  | or (rd rm rn : RegIdx)
  /-- NOT Rd, Rm, 45_logic.md R212. -/
  | not (rd rm : RegIdx)
  /-- XOR Rd, Rm, Rn, 45_logic.md R213. -/
  | xor (rd rm rn : RegIdx)
  /-- SHR Rd, Rm, 46_shift_rotate.md R230. -/
  | shr (rd rm : RegIdx)
  /-- SHL Rd, Rm, 46_shift_rotate.md R231. -/
  | shl (rd rm : RegIdx)
  /-- ROR Rd, Rm, 46_shift_rotate.md R232. -/
  | ror (rd rm : RegIdx)
  /-- ROL Rd, Rm, 46_shift_rotate.md R233. -/
  | rol (rd rm : RegIdx)
  /-- HALT, the sentinel word 0xFFFF, 40_engine_cycle.md R113. -/
  | halt
  /-- A word 0xF000 to 0xFFFE, 40_engine_cycle.md R117; `low` is w[11:0]. -/
  | unimplemented (low : BitVec 12)
deriving DecidableEq, Repr

end Sys2Proof
end

