-- ==== Sys2Proof/WellFormed.lean ====
section
/-! DEFINITION. Which terms of `Instr` a word can spell. Register numbers are right by their type
(30_encoding.md R82), so two checks are left. -/

namespace Sys2Proof

/-- STR [Rm], #imm: the address register is imm[7:5] (30_encoding.md R92). -/
def Instr.strImmRegMatches (rm : RegIdx) (imm : Byte) : Bool :=
  decide (rm = (imm.extractLsb' 5 3).toFin)

/-- The unimplemented class leaves out the sentinel 0xFFFF (30_encoding.md R90). -/
def Instr.lowIsNotSentinel (low : BitVec 12) : Bool :=
  decide (low ≠ 0xFFF#12)

/-- `i` is spelled by some word. -/
def Instr.wf : Instr → Bool
  | .strImm rm imm => Instr.strImmRegMatches rm imm
  | .unimplemented low => Instr.lowIsNotSentinel low
  | .jmp _ | .jeq _ | .jlt _ | .jgt _ | .nop | .push _ | .pop _ | .cmp _ _
  | .movImm _ _ | .movReg _ _ | .strReg _ _ | .ldr _ _
  | .add _ _ _ | .sub _ _ _ | .mul _ _ _ | .and _ _ _ | .or _ _ _ | .not _ _ | .xor _ _ _
  | .shr _ _ | .shl _ _ | .ror _ _ | .rol _ _ | .halt => true

end Sys2Proof
end

