-- ==== Sys2Proof/Decode.lean ====
section
/-! DEFINITION. The decoder (30_encoding.md R81 to R91), total on every word and on every list of
bytes, and after it the encoder (R86). -/

namespace Sys2Proof

/-! ## Fields of a word (30_encoding.md R81) -/

/-- `op`, w[15:12]. -/
def fieldOp (w : Word) : BitVec 4 := w.extractLsb' 12 4

/-- `I`, w[11]. -/
def fieldI (w : Word) : Bool := w.getLsbD 11

/-- `rd`, w[10:8]. -/
def fieldRd (w : Word) : RegIdx := (w.extractLsb' 8 3).toFin

/-- `rm`, w[7:5]. -/
def fieldRm (w : Word) : RegIdx := (w.extractLsb' 5 3).toFin

/-- `rn`, w[4:2]. -/
def fieldRn (w : Word) : RegIdx := (w.extractLsb' 2 3).toFin

/-- `low2`, w[1:0]. -/
def fieldLow2 (w : Word) : BitVec 2 := w.extractLsb' 0 2

/-- `imm8`, w[7:0]. -/
def fieldImm8 (w : Word) : Byte := w.extractLsb' 0 8

/-- `disp`, w[10:2]. -/
def fieldDisp (w : Word) : BitVec 9 := w.extractLsb' 2 9

/-! ## Decoding a word -/

/-- The four branches, op = 0 and I = 1, by `low2` (30_encoding.md R87). -/
def decodeBranch (w : Word) : Instr :=
  match (fieldLow2 w).toNat with
  | 0 => .jmp (fieldDisp w)
  | 1 => .jeq (fieldDisp w)
  | 2 => .jlt (fieldDisp w)
  | _ => .jgt (fieldDisp w)

/-- NOP, PUSH, POP and CMP, op = 0 and I = 0, by `low2` (30_encoding.md R87). -/
def decodeOpZero (w : Word) : Instr :=
  match (fieldLow2 w).toNat with
  | 0 => .nop
  | 1 => .push (fieldRn w)
  | 2 => .pop (fieldRd w)
  | _ => .cmp (fieldRm w) (fieldRn w)

/-- The dispatch table of 30_encoding.md R87 by `op`; its last row, the unimplemented class, is
the one opcode left, 0xF (R90). -/
def decodeByOp (w : Word) : Instr :=
  match (fieldOp w).toNat with
  | 0x0 => if fieldI w then decodeBranch w else decodeOpZero w
  | 0x1 => if fieldI w then .movImm (fieldRd w) (fieldImm8 w) else .movReg (fieldRd w) (fieldRm w)
  | 0x2 => if fieldI w then .strImm (fieldRm w) (fieldImm8 w) else .strReg (fieldRm w) (fieldRn w)
  | 0x3 => .ldr (fieldRd w) (fieldRm w)
  | 0x4 => .add (fieldRd w) (fieldRm w) (fieldRn w)
  | 0x5 => .sub (fieldRd w) (fieldRm w) (fieldRn w)
  | 0x6 => .mul (fieldRd w) (fieldRm w) (fieldRn w)
  | 0x7 => .and (fieldRd w) (fieldRm w) (fieldRn w)
  | 0x8 => .or (fieldRd w) (fieldRm w) (fieldRn w)
  | 0x9 => .not (fieldRd w) (fieldRm w)
  | 0xA => .xor (fieldRd w) (fieldRm w) (fieldRn w)
  | 0xB => .shr (fieldRd w) (fieldRm w)
  | 0xC => .shl (fieldRd w) (fieldRm w)
  | 0xD => .ror (fieldRd w) (fieldRm w)
  | 0xE => .rol (fieldRd w) (fieldRm w)
  | _ => .unimplemented (w.extractLsb' 0 12)

/-- Decode one word. The halt sentinel is tested first, on the whole word (30_encoding.md R88);
decoding never fails (R85). -/
def decodeWord (w : Word) : Instr :=
  if w = Machine.hw.haltWord then .halt else decodeByOp w

/-! ## Decoding bytes -/

/-- The word whose bits 7..0 are `lo` and 15..8 are `hi`. The model keeps the low byte at the lower
number (log entry 1; no instruction can see it, 20_memory.md R65). -/
def wordOfBytes (lo hi : Byte) : Word := hi ++ lo

/-- Bits 7..0 of a word. -/
def lowByte (w : Word) : Byte := w.extractLsb' 0 8

/-- Bits 15..8 of a word. -/
def highByte (w : Word) : Byte := w.extractLsb' 8 8

/-- Why a list of bytes holds no instruction. -/
inductive DecodeReject where
  /-- Fewer than the two bytes of an instruction (30_encoding.md R80). Raised by `decode` alone;
  the machine fetches whole words, so no step meets it: safe. -/
  | truncated
deriving DecidableEq, Repr

/-- Read one instruction from the front of a list of bytes, and give the rest back. -/
def decode : List Byte → Except DecodeReject (Instr × List Byte)
  | lo :: hi :: rest => .ok (decodeWord (wordOfBytes lo hi), rest)
  | [_] | [] => .error .truncated

/-- The first word of an instruction whose table bits are `w`, numbered as spec/opcode_table.json
numbers them, every bit from `nbits` up taken as 0. -/
def tableWord (nbits w : Nat) : Word := BitVec.ofNat 16 (w % 2 ^ nbits)

/-- What the decoder reads from an instruction with the table bits `w` (one word, as every
instruction here is, 30_encoding.md R80). -/
def decodeTableWord (nbits w : Nat) : Option Instr :=
  match decode [lowByte (tableWord nbits w), highByte (tableWord nbits w)] with
  | .ok (i, _) => some i
  | .error _ => none

/-! ## Encoding (30_encoding.md R86), ignored bits 0 -/

/-- A register number as a 3-bit field. -/
def regBits (r : RegIdx) : BitVec 3 := BitVec.ofFin r

/-- A field with its lowest bit at bit `lo` of a word. -/
def atBit {n : Nat} (field : BitVec n) (lo : Nat) : Word := field.zeroExtend 16 <<< lo

/-- Format `BR`: `0x0800 | ((d mod 512) << 2) | cond`. -/
def encodeBR (disp : BitVec 9) (cond : BitVec 2) : Word :=
  0x0800#16 ||| atBit disp 2 ||| atBit cond 0

/-- Format `R0`: `(rd << 8) | (rm << 5) | (rn << 2) | sub`. -/
def encodeR0 (rd rm rn : RegIdx) (sub : BitVec 2) : Word :=
  atBit (regBits rd) 8 ||| atBit (regBits rm) 5 ||| atBit (regBits rn) 2 ||| atBit sub 0

/-- Format `MI`: `0x1800 | (rd << 8) | imm`. -/
def encodeMI (rd : RegIdx) (imm : Byte) : Word :=
  0x1800#16 ||| atBit (regBits rd) 8 ||| atBit imm 0

/-- Format `SI`: `0x2800 | imm`. The address register is imm[7:5] (30_encoding.md R92). -/
def encodeSI (imm : Byte) : Word := 0x2800#16 ||| atBit imm 0

/-- Format `R`, with I = 0: `(op << 12) | (rd << 8) | (rm << 5) | (rn << 2)`. -/
def encodeR (op : BitVec 4) (rd rm rn : RegIdx) : Word :=
  atBit op 12 ||| atBit (regBits rd) 8 ||| atBit (regBits rm) 5 ||| atBit (regBits rn) 2

/-- The word of a well-formed instruction. -/
def encode : Instr → Word
  | .jmp disp => encodeBR disp 0b00#2
  | .jeq disp => encodeBR disp 0b01#2
  | .jlt disp => encodeBR disp 0b10#2
  | .jgt disp => encodeBR disp 0b11#2
  | .nop => encodeR0 0 0 0 0b00#2
  | .push rn => encodeR0 0 0 rn 0b01#2
  | .pop rd => encodeR0 rd 0 0 0b10#2
  | .cmp rm rn => encodeR0 0 rm rn 0b11#2
  | .movImm rd imm => encodeMI rd imm
  | .movReg rd rm => encodeR 0x1#4 rd rm 0
  | .strImm _ imm => encodeSI imm
  | .strReg rm rn => encodeR 0x2#4 0 rm rn
  | .ldr rd rm => encodeR 0x3#4 rd rm 0
  | .add rd rm rn => encodeR 0x4#4 rd rm rn
  | .sub rd rm rn => encodeR 0x5#4 rd rm rn
  | .mul rd rm rn => encodeR 0x6#4 rd rm rn
  | .and rd rm rn => encodeR 0x7#4 rd rm rn
  | .or rd rm rn => encodeR 0x8#4 rd rm rn
  | .not rd rm => encodeR 0x9#4 rd rm 0
  | .xor rd rm rn => encodeR 0xA#4 rd rm rn
  | .shr rd rm => encodeR 0xB#4 rd rm 0
  | .shl rd rm => encodeR 0xC#4 rd rm 0
  | .ror rd rm => encodeR 0xD#4 rd rm 0
  | .rol rd rm => encodeR 0xE#4 rd rm 0
  | .halt => Machine.hw.haltWord
  | .unimplemented low => 0xF000#16 ||| atBit low 0

/-- The bytes of a well-formed instruction, as the memories keep them. -/
def encodeBytes (i : Instr) : List Byte := [lowByte (encode i), highByte (encode i)]

/-! ## The opcode map as masks (30_encoding.md R89, R91) -/

/-- The `mask` of the instruction's row in R89. -/
def Instr.mask : Instr → Word
  | .jmp _ | .jeq _ | .jlt _ | .jgt _ | .nop | .push _ | .pop _ | .cmp _ _ => 0xF803#16
  | .movImm _ _ | .movReg _ _ | .strImm _ _ | .strReg _ _ => 0xF800#16
  | .ldr _ _ | .add _ _ _ | .sub _ _ _ | .mul _ _ _ | .and _ _ _ | .or _ _ _ | .not _ _
  | .xor _ _ _ | .shr _ _ | .shl _ _ | .ror _ _ | .rol _ _ => 0xF000#16
  | .halt => 0xFFFF#16
  | .unimplemented _ => 0xF000#16

/-- The `match` of the instruction's row in R89. -/
def Instr.matchBits : Instr → Word
  | .jmp _ => 0x0800#16
  | .jeq _ => 0x0801#16
  | .jlt _ => 0x0802#16
  | .jgt _ => 0x0803#16
  | .nop => 0x0000#16
  | .push _ => 0x0001#16
  | .pop _ => 0x0002#16
  | .cmp _ _ => 0x0003#16
  | .movImm _ _ => 0x1800#16
  | .movReg _ _ => 0x1000#16
  | .strImm _ _ => 0x2800#16
  | .strReg _ _ => 0x2000#16
  | .ldr _ _ => 0x3000#16
  | .add _ _ _ => 0x4000#16
  | .sub _ _ _ => 0x5000#16
  | .mul _ _ _ => 0x6000#16
  | .and _ _ _ => 0x7000#16
  | .or _ _ _ => 0x8000#16
  | .not _ _ => 0x9000#16
  | .xor _ _ _ => 0xA000#16
  | .shr _ _ => 0xB000#16
  | .shl _ _ => 0xC000#16
  | .ror _ _ => 0xD000#16
  | .rol _ _ => 0xE000#16
  | .halt => 0xFFFF#16
  | .unimplemented _ => 0xF000#16

/-- The bits of a word that the instruction uses: all but those R91 lists as ignored. -/
def Instr.usedBits : Instr → Word
  | .jmp _ | .jeq _ | .jlt _ | .jgt _ | .movImm _ _ | .halt | .unimplemented _ => 0xFFFF#16
  | .nop => 0xF803#16
  | .push _ => 0xF81F#16
  | .pop _ => 0xFF03#16
  | .cmp _ _ => 0xF8FF#16
  | .movReg _ _ => 0xFFE0#16
  | .strImm _ _ => 0xF8FF#16
  | .strReg _ _ => 0xF8FC#16
  | .ldr _ _ => 0xF7E0#16
  | .add _ _ _ | .sub _ _ _ | .mul _ _ _ | .and _ _ _ | .or _ _ _ | .xor _ _ _ => 0xF7FC#16
  | .not _ _ | .shr _ _ | .shl _ _ | .ror _ _ | .rol _ _ => 0xF7E0#16

end Sys2Proof
end

