-- ==== Sys2Proof/Machine/State.lean ====
section
/-! DEFINITION. The state of the block, all of 10_state.md R43, as plain data, and its reset
(70_reset_and_hazards.md R281). -/

namespace Sys2Proof.Machine

/-- The three address spaces, and there are no others (20_memory.md R50). -/
inductive Space where
  /-- Program memory, reached by the fetch alone. -/
  | pm
  /-- Data memory, reached by STR and LDR alone. -/
  | dm
  /-- The backing store of the stack window, reached by PUSH and POP alone. -/
  | stk
deriving DecidableEq, Repr

/-- The contents of one address space: the bytes that differ from the space's fill, in rising order
of their numbers. Word `i` is bytes `2 * i` and `2 * i + 1` (log entry 1). -/
abbrev Memory := List Host.Cell

/-- The four condition flags, one bit each (10_state.md R29). -/
structure Flags where
  /-- Zero. -/
  z : Bool
  /-- Carry. -/
  c : Bool
  /-- Negative. -/
  n : Bool
  /-- Overflow. -/
  v : Bool
deriving DecidableEq, Repr

/-- Why the engine halted (10_state.md R36). -/
inductive HaltReason where
  /-- The fetched word was the halt sentinel. -/
  | sentinel
  /-- `pc` addressed outside program memory. -/
  | boundary
deriving DecidableEq, Repr

/-- The run state of the engine (10_state.md R35). -/
inductive RunState where
  | running
  | halted (reason : HaltReason)
deriving DecidableEq, Repr

/-- The reported conditions (60_exceptions.md R252). -/
inductive Condition where
  /-- R255: never raised, since every register field is 3 bits wide. -/
  | invalidRegister
  /-- R256: STR or LDR with an address outside data memory. -/
  | dataAddressRange
  /-- R257: PUSH on a full stack. -/
  | stackOverflow
  /-- R258: POP on an empty stack. -/
  | stackUnderflow
  /-- R259: an opcode-0xF word other than the sentinel. -/
  | unimplementedOpcode
  /-- R260: pc outside program memory before a fetch. -/
  | pcBoundary
deriving DecidableEq, Repr

/-- One record of the report stream (60_exceptions.md R251). -/
structure Report where
  /-- The condition; its number is `Condition.code`. -/
  cond : Condition
  /-- The address of the instruction that raised it. -/
  pc : Word
  /-- That instruction's word. -/
  ir : Word
  /-- The condition's info (R252). -/
  info : Word
deriving DecidableEq, Repr

/-- The complete state of the block (10_state.md R43). -/
structure State where
  /-- The general registers R0 to R7 (R20). -/
  regs : Vector Word 8
  /-- The program counter, a byte address into program memory (R24). -/
  pc : Word
  /-- The last fetched instruction word (R28). -/
  ir : Word
  /-- Z, C, N and V (R29). -/
  flags : Flags
  /-- The stack pointer, a stack address (R34). -/
  sp : Word
  /-- Program memory (20_memory.md R51). -/
  pm : Memory
  /-- Data memory (20_memory.md R54). -/
  dm : Memory
  /-- The stack backing store (20_memory.md R59). -/
  stk : Memory
  /-- Running, or Halted with its reason (R35, R36). -/
  run : RunState
  /-- The report stream, oldest record first (R38). -/
  reports : List Report
deriving DecidableEq, Repr

/-- The block stops with no fault: "the block has no trap, exception or interrupt mechanism" and no
error is fatal (60_exceptions.md R250), and Halted is no fault (40_engine_cycle.md R119). So there
is no constructor. -/
inductive Fault where
deriving DecidableEq, Repr

/-- Why an instruction is given no meaning. -/
inductive Refusal where
  /-- The instruction of this mnemonic is not modelled yet; raised by `exec` alone, and by no arm
  of it now. Safe: nothing is claimed of the instruction. -/
  | notModelled (mnemonic : String)
deriving DecidableEq, Repr

/-- The outcome of a meaning or a step of this machine. -/
abbrev Result := Host.Outcome State Fault Refusal

/-- The machine right after reset, before a load (70_reset_and_hazards.md R281). `sp` is the spec's
decision D4 (log entry 3); no memory byte is listed, so each reads as its space's fill. -/
def State.reset : State where
  regs := Vector.replicate 8 0x0000#16
  pc := hw.pcReset
  ir := 0x0000#16
  flags := ⟨false, false, false, false⟩
  sp := hw.spReset
  pm := []
  dm := []
  stk := []
  run := .running
  reports := []

end Sys2Proof.Machine
end

