-- ==== Sys2Proof/Machine/Memory.lean ====
section
/-! DEFINITION. The three memories: what an unlisted byte reads as, reading and writing a byte, and
from these reading and writing a word (20_memory.md R57, R64, R67). -/

namespace Sys2Proof.Machine

/-- The number of words of an address space (00_scope.md R6; 20_memory.md R51, R54, R59). -/
def Space.words : Space → Nat
  | .pm => hw.pmWords
  | .dm => hw.dmWords
  | .stk => hw.stackSlots

/-- What every word of an address space holds before a load or a store: the sentinel in program
memory (20_memory.md R51), zero in data memory (R56) and in the stack backing store (R62). -/
def Space.fill : Space → Word
  | .pm => hw.haltWord
  | .dm => 0x0000#16
  | .stk => 0x0000#16

/-- What byte `a` of an address space reads as when the memory does not list it: its half of the
fill word. -/
def Space.unlisted (sp : Space) (a : Nat) : Byte :=
  if a % 2 = 0 then lowByte sp.fill else highByte sp.fill

/-- Byte `a` of a memory. -/
def Memory.readByte (sp : Space) : Memory → Nat → Byte
  | [], a => sp.unlisted a
  | (b, u) :: rest, a => if b = a then u else Memory.readByte sp rest a

/-- A memory without its entry for byte `a`. -/
def Memory.eraseByte (m : Memory) (a : Nat) : Memory := m.filter fun c => decide (c.1 ≠ a)

/-- Put an entry for byte `a` before the first entry of a higher number. -/
def Memory.insertByte : Memory → Nat → Byte → Memory
  | [], a, v => [(a, v)]
  | (b, u) :: rest, a, v =>
    if b < a then (b, u) :: Memory.insertByte rest a v else (a, v) :: (b, u) :: rest

/-- Set byte `a` of a memory to `v`; no entry is kept for a value an unlisted byte reads as. -/
def Memory.writeByte (sp : Space) (m : Memory) (a : Nat) (v : Byte) : Memory :=
  if v = sp.unlisted a then Memory.eraseByte m a
  else Memory.insertByte (Memory.eraseByte m a) a v

/-- Word `i` of a memory: `MemRead(space, i, 1)` of 00_scope.md R9. -/
def Memory.readWord (sp : Space) (m : Memory) (i : Nat) : Word :=
  wordOfBytes (Memory.readByte sp m (2 * i)) (Memory.readByte sp m (2 * i + 1))

/-- Set word `i` of a memory: `MemWrite(space, i, 1, v)` of 00_scope.md R9. -/
def Memory.writeWord (sp : Space) (m : Memory) (i : Nat) (v : Word) : Memory :=
  Memory.writeByte sp (Memory.writeByte sp m (2 * i) (lowByte v)) (2 * i + 1) (highByte v)

/-- The canonical form: byte numbers strictly rising, each within the space, and no entry equal to
what an unlisted byte reads as. Equal contents are equal lists. -/
abbrev Memory.wf (sp : Space) (m : Memory) : Prop :=
  m.Pairwise (fun c d => c.1 < d.1) ∧ ∀ c ∈ m, c.1 < 2 * sp.words ∧ c.2 ≠ sp.unlisted c.1

/-- The contents of an address space. -/
def State.memory (s : State) : Space → Memory
  | .pm => s.pm
  | .dm => s.dm
  | .stk => s.stk

/-- Byte `a` of an address space. -/
def State.byteAt (s : State) (sp : Space) (a : Nat) : Byte := Memory.readByte sp (s.memory sp) a

/-- Word `i` of an address space. -/
def State.wordAt (s : State) (sp : Space) (i : Nat) : Word := Memory.readWord sp (s.memory sp) i

/-- Set word `i` of an address space; every other field is kept. -/
def State.setWordAt (s : State) (sp : Space) (i : Nat) (v : Word) : State :=
  match sp with
  | .pm => { s with pm := Memory.writeWord .pm s.pm i v }
  | .dm => { s with dm := Memory.writeWord .dm s.dm i v }
  | .stk => { s with stk := Memory.writeWord .stk s.stk i v }

end Sys2Proof.Machine
end

