-- ==== Sys2Proof/Machine/Operands.lean ====
section
/-! DEFINITION. The operand forms: registers (00_scope.md R9), the immediate (30_encoding.md R83),
the displacement (R84), the data memory address (20_memory.md R55) and the stack slot (R59). -/

namespace Sys2Proof.Machine

/-- `x[r]` (00_scope.md R9). -/
def State.getReg (s : State) (r : RegIdx) : Word := s.regs[r]

/-- `x[r] <- v` (00_scope.md R9). No register is hardwired or aliased (10_state.md R20). -/
def State.setReg (s : State) (r : RegIdx) (v : Word) : State := { s with regs := s.regs.set r v }

/-- `u16(v) = v mod 2^16` of an unbounded integer (00_scope.md R8). -/
def u16 (v : Int) : Word := BitVec.ofInt 16 v

/-- The immediate operand, imm8 zero-extended (30_encoding.md R83). -/
def immOperand (imm : Byte) : Word := imm.zeroExtend 16

/-- The branch displacement, w[10:2] sign-extended (30_encoding.md R84). -/
def dispOperand (disp : BitVec 9) : Word := disp.signExtend 16

/-- The bounds check of STR and LDR, on the whole 16-bit value (20_memory.md R55). -/
def dmInRange (a : Word) : Bool := decide (a.toNat < hw.dmWords)

/-- The backing index of stack address `a`: `(a − STACK_BASE) mod STACK_SLOTS`, computed on
integers (20_memory.md R59). -/
def stackIndex (a : Word) : Nat :=
  (((a.toNat : Int) - (hw.stackBase : Int)) % (hw.stackSlots : Int)).toNat

/-- PUSH is allowed: `sp − STACK_STEP ≥ STACK_BASE` on integers (20_memory.md R63), written as
`STACK_BASE + STACK_STEP ≤ sp` over natural numbers, so that nothing wraps or goes negative. -/
def pushAllowed (sp : Word) : Bool := decide (hw.stackBase + hw.stackStep ≤ sp.toNat)

/-- POP is allowed: `sp + STACK_STEP ≤ STACK_TOP` on integers, without wrapping
(20_memory.md R63). -/
def popAllowed (sp : Word) : Bool := decide (sp.toNat + hw.stackStep ≤ hw.stackTop)

/-- The program memory index of a byte address, rounding down (20_memory.md R52). -/
def pmIndex (pc : Word) : Nat := pc.toNat / 2

/-- `pc` addresses outside program memory (20_memory.md R52; 40_engine_cycle.md R111). -/
def pcOutside (pc : Word) : Bool := decide (pmIndex pc ≥ hw.pmWords)

end Sys2Proof.Machine
end

