-- ==== Sys2Proof/Machine/Flags.lean ====
section
/-! DEFINITION. The ALU and the flag unit: the result of each operation and its four flags
(10_state.md R30; 44_arith.md R190 to R195; 45_logic.md; 46_shift_rotate.md). -/

namespace Sys2Proof.Machine

/-- What an ALU operation answers: a 16-bit result and all four flags (10_state.md R29). -/
structure AluOut where
  /-- The 16-bit result `r`. -/
  result : Word
  /-- Z, C, N and V. -/
  flags : Flags
deriving DecidableEq, Repr

/-- `sign(v) = v[15]` (00_scope.md R8). -/
def sign (v : Word) : Bool := v.getLsbD 15

/-- Z and N from the result, C and V as the operation's own rule gives them (44_arith.md R190). -/
def aluOut (r : Word) (c v : Bool) : AluOut := ⟨r, ⟨decide (r = 0x0000#16), c, sign r, v⟩⟩

/-- ADD: `s = a + b` widened, C = s > 0xFFFF (44_arith.md R192). -/
def aluAdd (a b : Word) : AluOut :=
  let s : Nat := a.toNat + b.toNat
  let r := u16 s
  aluOut r (decide (s > 0xFFFF)) (sign a == sign b && sign r != sign a)

/-- SUB and CMP: C = a ≥ b unsigned, "no borrow" (44_arith.md R193; 42_opcode0_stack_cmp.md R154). -/
def aluSub (a b : Word) : AluOut :=
  let r := u16 ((a.toNat : Int) - (b.toNat : Int))
  aluOut r (decide (a.toNat ≥ b.toNat)) (sign a != sign b && sign r != sign a)

/-- MUL: the low half of the unsigned product, C = V = product > 0xFFFF (44_arith.md R194). -/
def aluMul (a b : Word) : AluOut :=
  let p : Nat := a.toNat * b.toNat
  aluOut (u16 p) (decide (p > 0xFFFF)) (decide (p > 0xFFFF))

/-- AND (45_logic.md R210). -/
def aluAnd (a b : Word) : AluOut := aluOut (a &&& b) false false

/-- OR (45_logic.md R211). -/
def aluOr (a b : Word) : AluOut := aluOut (a ||| b) false false

/-- NOT (45_logic.md R212). -/
def aluNot (a : Word) : AluOut := aluOut (~~~a) false false

/-- XOR (45_logic.md R213). -/
def aluXor (a b : Word) : AluOut := aluOut (a ^^^ b) false false

/-- SHR: logical, by 1; C is bit 0 of the operand (46_shift_rotate.md R230). -/
def aluShr (a : Word) : AluOut := aluOut (a >>> 1) (a.getLsbD 0) false

/-- SHL: by 1; C is bit 15 of the operand (46_shift_rotate.md R231). -/
def aluShl (a : Word) : AluOut := aluOut (a <<< 1) (a.getLsbD 15) false

/-- ROR: `(a >> 1) | (a[0] << 15)`; C is bit 0 of the operand (46_shift_rotate.md R232). -/
def aluRor (a : Word) : AluOut :=
  aluOut ((a >>> 1) ||| ((BitVec.ofBool (a.getLsbD 0)).zeroExtend 16 <<< 15)) (a.getLsbD 0) false

/-- ROL: `(a << 1) | a[15]`; C is bit 15 of the operand (46_shift_rotate.md R233). -/
def aluRol (a : Word) : AluOut :=
  aluOut ((a <<< 1) ||| (BitVec.ofBool (a.getLsbD 15)).zeroExtend 16) (a.getLsbD 15) false

/-- JLT's flag test under each value of `JLT_COND` (41_branch.md R134). -/
def jltTaken (cond : JltCond) (f : Flags) : Bool :=
  match cond with
  | .neg => f.n && !f.z
  | .carry => f.c && !f.z

/-- JEQ's flag test (41_branch.md R133). -/
def jeqTaken (f : Flags) : Bool := f.z

/-- JGT's flag test, kept as the document writes it (41_branch.md R135; 90_conflicts.md C4). -/
def jgtTaken (f : Flags) : Bool := !f.c && !f.z

/-- The interface packing `{Z, C, N, V}`, Z in bit 3 (10_state.md R42). -/
def Flags.pack (f : Flags) : BitVec 4 :=
  BitVec.ofBool f.z ++ BitVec.ofBool f.c ++ BitVec.ofBool f.n ++ BitVec.ofBool f.v

end Sys2Proof.Machine
end

