-- ==== Sys2Proof/Machine/Ops.lean ====
section
/-! DEFINITION. The named operations the meanings are written with: reporting a condition (the
block's one response to an error, 60_exceptions.md R250: it has no trap entry and no return, R264,
R265), the ALU write-back, branches, data memory and stack accesses, and the two ends of a run. -/

namespace Sys2Proof.Machine

/-- The numbers of the conditions (60_exceptions.md R252). -/
def Condition.code : Condition → Nat
  | .invalidRegister => 1
  | .dataAddressRange => 2
  | .stackOverflow => 3
  | .stackUnderflow => 4
  | .unimplementedOpcode => 5
  | .pcBoundary => 6

/-- `pc <- target` (00_scope.md R9). -/
def State.setPc (s : State) (v : Word) : State := { s with pc := v }

/-- `ir <- word` (40_engine_cycle.md R115). -/
def State.setIr (s : State) (v : Word) : State := { s with ir := v }

/-- `sp <- v` (00_scope.md R9). -/
def State.setSp (s : State) (v : Word) : State := { s with sp := v }

/-- Write all four flags (10_state.md R29). -/
def State.setFlags (s : State) (f : Flags) : State := { s with flags := f }

/-- Enter a run state (10_state.md R35). -/
def State.setRun (s : State) (r : RunState) : State := { s with run := r }

/-- `raise C(info)`: append the record `(C, pc, ir, info)` and change nothing else (00_scope.md R10;
60_exceptions.md R251, R253). -/
def raise (c : Condition) (info : Word) (s : State) : State :=
  { s with reports := s.reports ++ [⟨c, s.pc, s.ir, info⟩] }

/-- Write an ALU result to rd and its flags to the flag unit (44_arith.md R190, R191). -/
def writeAlu (rd : RegIdx) (o : AluOut) (s : State) : State := (s.setReg rd o.result).setFlags o.flags

/-- `if taken then pc <- u16(pc + disp)` (41_branch.md R131). -/
def branchIf (taken : Bool) (disp : BitVec 9) (s : State) : State :=
  if taken then s.setPc (s.pc + dispOperand disp) else s

/-- STR's access: `if a < DM_WORDS then DM[a] <- v else raise DataAddressRange(a)`
(20_memory.md R55; 43_move_memory.md R172, R173). -/
def storeData (a v : Word) (s : State) : State :=
  if dmInRange a then s.setWordAt .dm a.toNat v else raise .dataAddressRange a s

/-- LDR's access: `if a < DM_WORDS then x[rd] <- DM[a] else raise DataAddressRange(a)`
(20_memory.md R55; 43_move_memory.md R174). -/
def loadData (rd : RegIdx) (a : Word) (s : State) : State :=
  if dmInRange a then s.setReg rd (s.wordAt .dm a.toNat) else raise .dataAddressRange a s

/-- `MemRead(STK, a, 1)` (20_memory.md R64). -/
def State.stackWord (s : State) (a : Word) : Word := s.wordAt .stk (stackIndex a)

/-- `MemWrite(STK, a, 1, v)` (20_memory.md R64). -/
def State.setStackWord (s : State) (a v : Word) : State := s.setWordAt .stk (stackIndex a) v

/-- PUSH's access: write at sp, then move sp down, or report a full stack
(42_opcode0_stack_cmp.md R151). -/
def pushWord (v : Word) (s : State) : State :=
  if pushAllowed s.sp then
    (s.setStackWord s.sp v).setSp (u16 ((s.sp.toNat : Int) - (hw.stackStep : Int)))
  else raise .stackOverflow s.sp s

/-- POP's access: move sp up, then read at sp into rd, or report an empty stack
(42_opcode0_stack_cmp.md R152). -/
def popWord (rd : RegIdx) (s : State) : State :=
  if popAllowed s.sp then
    let sp' := u16 ((s.sp.toNat : Int) + (hw.stackStep : Int))
    (s.setSp sp').setReg rd (s.stackWord sp')
  else raise .stackUnderflow s.sp s

/-- The sentinel halt: ir and the run state alone change, and nothing is reported
(40_engine_cycle.md R113). -/
def sentinelHalt (s : State) : State := (s.setIr hw.haltWord).setRun (.halted .sentinel)

/-- The boundary halt: the condition is reported and the run ends, nothing else changes
(40_engine_cycle.md R111; 60_exceptions.md R260). -/
def boundaryHalt (s : State) : State := (raise .pcBoundary s.pc s).setRun (.halted .boundary)

/-- `word <- MemRead(PM, ⌊pc/2⌋, 1)` (40_engine_cycle.md R112). -/
def fetchWord (s : State) : Word := s.wordAt .pm (pmIndex s.pc)

/-- The engine's `pc <- u16(pc + PC_STEP)` after an executed word (40_engine_cycle.md R116). The
sentinel is no executed word: it leaves the engine Halted, and pc keeps its address (R113). -/
def advancePc (s : State) : State :=
  match s.run with
  | .running => s.setPc (s.pc + BitVec.ofNat 16 hw.pcStep)
  | .halted _ => s

end Sys2Proof.Machine
end

