-- ==== Sys2Proof/Machine/Arith.lean ====
section
/-! DEFINITION. ADD, SUB and MUL (44_arith.md R192 to R194). -/

namespace Sys2Proof.Machine

/-- ADD Rd, Rm, Rn (R192). -/
def execAdd (rd rm rn : RegIdx) (s : State) : Result :=
  .next (writeAlu rd (aluAdd (s.getReg rm) (s.getReg rn)) s)

/-- SUB Rd, Rm, Rn (R193). -/
def execSub (rd rm rn : RegIdx) (s : State) : Result :=
  .next (writeAlu rd (aluSub (s.getReg rm) (s.getReg rn)) s)

/-- MUL Rd, Rm, Rn (R194). -/
def execMul (rd rm rn : RegIdx) (s : State) : Result :=
  .next (writeAlu rd (aluMul (s.getReg rm) (s.getReg rn)) s)

end Sys2Proof.Machine
end

