-- ==== Sys2Proof/Machine/Branch.lean ====
section
/-! DEFINITION. The branches (41_branch.md R130 to R135). They write no register, no memory and no flag. -/

namespace Sys2Proof.Machine

/-- JMP d (R132). -/
def execJmp (disp : BitVec 9) (s : State) : Result := .next (branchIf true disp s)

/-- JEQ d (R133). -/
def execJeq (disp : BitVec 9) (s : State) : Result := .next (branchIf (jeqTaken s.flags) disp s)

/-- JLT d under a value of the parameter `JLT_COND` (R134). -/
def jltUnder (cond : JltCond) (disp : BitVec 9) (s : State) : Result :=
  .next (branchIf (jltTaken cond s.flags) disp s)

/-- JLT d with this hardware's `JLT_COND` (R134, log entry 5). -/
def execJlt (disp : BitVec 9) (s : State) : Result := jltUnder hw.jltCond disp s

/-- JGT d (R135, log entry 6). -/
def execJgt (disp : BitVec 9) (s : State) : Result := .next (branchIf (jgtTaken s.flags) disp s)

end Sys2Proof.Machine
end

