-- ==== Sys2Proof/Machine/Engine.lean ====
section
/-! DEFINITION. The two rows of the opcode table that are no instruction of the dispatch table: the halt
sentinel and the unimplemented class (40_engine_cycle.md R113, R117). -/

namespace Sys2Proof.Machine

/-- HALT, the sentinel word (R113). -/
def execHalt (s : State) : Result := .next (sentinelHalt s)

/-- A word of the unimplemented class (R117): it is reported, with the word as info, and nothing
else happens. -/
def execUnimplemented (low : BitVec 12) (s : State) : Result :=
  .next (raise .unimplementedOpcode (encode (.unimplemented low)) s)

end Sys2Proof.Machine
end

