-- ==== Sys2Proof/Machine/Logic.lean ====
section
/-! DEFINITION. AND, OR, NOT and XOR (45_logic.md R210 to R213). -/

namespace Sys2Proof.Machine

/-- AND Rd, Rm, Rn (R210). -/
def execAnd (rd rm rn : RegIdx) (s : State) : Result :=
  .next (writeAlu rd (aluAnd (s.getReg rm) (s.getReg rn)) s)

/-- OR Rd, Rm, Rn (R211). -/
def execOr (rd rm rn : RegIdx) (s : State) : Result :=
  .next (writeAlu rd (aluOr (s.getReg rm) (s.getReg rn)) s)

/-- NOT Rd, Rm (R212). -/
def execNot (rd rm : RegIdx) (s : State) : Result := .next (writeAlu rd (aluNot (s.getReg rm)) s)

/-- XOR Rd, Rm, Rn (R213). -/
def execXor (rd rm rn : RegIdx) (s : State) : Result :=
  .next (writeAlu rd (aluXor (s.getReg rm) (s.getReg rn)) s)

end Sys2Proof.Machine
end

