-- ==== Sys2Proof/Machine/Move.lean ====
section
/-! DEFINITION. MOV, STR and LDR (43_move_memory.md R170 to R174). None writes a flag. -/

namespace Sys2Proof.Machine

/-- MOV Rd, #imm (R170). -/
def execMovImm (rd : RegIdx) (imm : Byte) (s : State) : Result := .next (s.setReg rd (immOperand imm))

/-- MOV Rd, Rm (R171). -/
def execMovReg (rd rm : RegIdx) (s : State) : Result := .next (s.setReg rd (s.getReg rm))

/-- STR [Rm], #imm (R172). -/
def execStrImm (rm : RegIdx) (imm : Byte) (s : State) : Result :=
  .next (storeData (s.getReg rm) (immOperand imm) s)

/-- STR [Rm], Rn (R173). -/
def execStrReg (rm rn : RegIdx) (s : State) : Result :=
  .next (storeData (s.getReg rm) (s.getReg rn) s)

/-- LDR Rd, [Rm] (R174). -/
def execLdr (rd rm : RegIdx) (s : State) : Result := .next (loadData rd (s.getReg rm) s)

end Sys2Proof.Machine
end

