-- ==== Sys2Proof/Machine/Shift.lean ====
section
/-! DEFINITION. SHR, SHL, ROR and ROL, each by one bit (46_shift_rotate.md R230 to R233). -/

namespace Sys2Proof.Machine

/-- SHR Rd, Rm (R230). -/
def execShr (rd rm : RegIdx) (s : State) : Result := .next (writeAlu rd (aluShr (s.getReg rm)) s)

/-- SHL Rd, Rm (R231). -/
def execShl (rd rm : RegIdx) (s : State) : Result := .next (writeAlu rd (aluShl (s.getReg rm)) s)

/-- ROR Rd, Rm (R232). -/
def execRor (rd rm : RegIdx) (s : State) : Result := .next (writeAlu rd (aluRor (s.getReg rm)) s)

/-- ROL Rd, Rm (R233). -/
def execRol (rd rm : RegIdx) (s : State) : Result := .next (writeAlu rd (aluRol (s.getReg rm)) s)

end Sys2Proof.Machine
end

