-- ==== Sys2Proof/Machine/StackCmp.lean ====
section
/-! DEFINITION. NOP, PUSH, POP and CMP (42_opcode0_stack_cmp.md R150, R151, R152, R154). -/

namespace Sys2Proof.Machine

/-- NOP (R150): nothing. Its "diagnostic dump" is the excluded reporter's (log entry 8). -/
def execNop (s : State) : Result := .next s

/-- PUSH Rn (R151). -/
def execPush (rn : RegIdx) (s : State) : Result := .next (pushWord (s.getReg rn) s)

/-- POP Rd (R152). -/
def execPop (rd : RegIdx) (s : State) : Result := .next (popWord rd s)

/-- CMP Rm, Rn (R154): the flags of SUB, and no register. -/
def execCmp (rm rn : RegIdx) (s : State) : Result :=
  .next (s.setFlags (aluSub (s.getReg rm) (s.getReg rn)).flags)

end Sys2Proof.Machine
end

