-- ==== Sys2Proof/Machine/Dispatch.lean ====
section
/-! DEFINITION. The dispatcher: one arm per constructor of `Instr`. -/

namespace Sys2Proof.Machine

/-- The instruction's own rule, with ir already written and pc still at its word
(40_engine_cycle.md R115). -/
def exec (i : Instr) (s : State) : Host.Outcome State Fault Refusal :=
  match i with
  | .jmp disp => Sys2Proof.Machine.execJmp disp s
  | .jeq disp => Sys2Proof.Machine.execJeq disp s
  | .jlt disp => Sys2Proof.Machine.execJlt disp s
  | .jgt disp => Sys2Proof.Machine.execJgt disp s
  | .nop => Sys2Proof.Machine.execNop s
  | .push rn => Sys2Proof.Machine.execPush rn s
  | .pop rd => Sys2Proof.Machine.execPop rd s
  | .cmp rm rn => Sys2Proof.Machine.execCmp rm rn s
  | .movImm rd imm => Sys2Proof.Machine.execMovImm rd imm s
  | .movReg rd rm => Sys2Proof.Machine.execMovReg rd rm s
  | .strImm rm imm => Sys2Proof.Machine.execStrImm rm imm s
  | .strReg rm rn => Sys2Proof.Machine.execStrReg rm rn s
  | .ldr rd rm => Sys2Proof.Machine.execLdr rd rm s
  | .add rd rm rn => Sys2Proof.Machine.execAdd rd rm rn s
  | .sub rd rm rn => Sys2Proof.Machine.execSub rd rm rn s
  | .mul rd rm rn => Sys2Proof.Machine.execMul rd rm rn s
  | .and rd rm rn => Sys2Proof.Machine.execAnd rd rm rn s
  | .or rd rm rn => Sys2Proof.Machine.execOr rd rm rn s
  | .not rd rm => Sys2Proof.Machine.execNot rd rm s
  | .xor rd rm rn => Sys2Proof.Machine.execXor rd rm rn s
  | .shr rd rm => Sys2Proof.Machine.execShr rd rm s
  | .shl rd rm => Sys2Proof.Machine.execShl rd rm s
  | .ror rd rm => Sys2Proof.Machine.execRor rd rm s
  | .rol rd rm => Sys2Proof.Machine.execRol rd rm s
  | .halt => Sys2Proof.Machine.execHalt s
  | .unimplemented low => Sys2Proof.Machine.execUnimplemented low s

end Sys2Proof.Machine
end

