-- ==== Sys2Proof/Machine/Step.lean ====
section
/-! DEFINITION. One step of the engine (40_engine_cycle.md R110, R118), and placing a word where
the step fetches. -/

namespace Sys2Proof.Machine

/-- Run one decoded word: write ir, apply the instruction's rule, advance pc (40_engine_cycle.md
R114 to R116). -/
def executeWord (w : Word) (s : State) : Result :=
  match exec (decodeWord w) (s.setIr w) with
  | .next t => .next (advancePc t)
  | .fault f => .fault f
  | .refused r => .refused r

/-- One step (40_engine_cycle.md R118): the boundary check, the fetch, then the word. The sentinel
is the word that decodes to HALT (30_encoding.md R88). From Halted nothing changes any more (R119):
the step answers the same state (log entry 7). -/
def step (s : State) : Host.Outcome State Fault Refusal :=
  match s.run with
  | .halted _ => .next s
  | .running => if pcOutside s.pc then .next (boundaryHalt s) else executeWord (fetchWord s) s

/-- `s` with the word of the table bits `w` in program memory where the next step fetches. Nothing
else changes in a running state whose pc is inside program memory; any other state is made to fetch
(running, pc at PC_RESET), since it would fetch no word (log entry 18). -/
def State.withFetchWord (s : State) (nbits w : Nat) : State :=
  let pc := if pcOutside s.pc then hw.pcReset else s.pc
  ((s.setPc pc).setRun .running).setWordAt .pm (pmIndex pc) (tableWord nbits w)

end Sys2Proof.Machine
end

