-- ==== Sys2Proof/Machine/Interface.lean ====
section
/-! DEFINITION. The block's abstract ports, one transaction per step (10_state.md R41), written
from the port rule by itself: what the memories see of a step that starts in a state. -/

namespace Sys2Proof.Machine

/-- One access on a memory port: a read with the word that comes back, or a write. -/
inductive PortAccess (n : Nat) where
  | read (addr : BitVec n) (rdata : Word)
  | write (addr : BitVec n) (wdata : Word)
deriving DecidableEq, Repr

/-- The ports during one step (R41); `none` is an idle port. -/
structure Transaction where
  /-- `pm_index` and `pm_word`, at the fetch. -/
  pmRead : Option (BitVec 10 × Word)
  /-- The data memory port, used by STR and LDR. -/
  dataPort : Option (PortAccess 8)
  /-- The stack memory port, used by PUSH and POP. -/
  stackPort : Option (PortAccess 16)
  /-- `halted`: the engine was Halted when the step began. -/
  halted : Bool
  /-- `halt_reason`, while halted. -/
  haltReason : Option HaltReason
  /-- `report_code` and `report_info`, when a condition is reported. -/
  report : Option (Condition × Word)
deriving DecidableEq, Repr

/-- The data memory access of an instruction: STR writes and LDR reads, if the address is in range
(20_memory.md R55). -/
def dataAccess (i : Instr) (s : State) : Option (PortAccess 8) :=
  match i with
  | .strImm rm imm =>
    if dmInRange (s.getReg rm) then
      some (.write ((s.getReg rm).setWidth 8) (immOperand imm)) else none
  | .strReg rm rn =>
    if dmInRange (s.getReg rm) then
      some (.write ((s.getReg rm).setWidth 8) (s.getReg rn)) else none
  | .ldr _ rm =>
    if dmInRange (s.getReg rm) then
      some (.read ((s.getReg rm).setWidth 8) (s.wordAt .dm (s.getReg rm).toNat)) else none
  | .jmp _ | .jeq _ | .jlt _ | .jgt _ | .nop | .push _ | .pop _ | .cmp _ _
  | .movImm _ _ | .movReg _ _ | .add _ _ _ | .sub _ _ _ | .mul _ _ _ | .and _ _ _ | .or _ _ _
  | .not _ _ | .xor _ _ _ | .shr _ _ | .shl _ _ | .ror _ _ | .rol _ _ | .halt
  | .unimplemented _ => none

/-- The stack access of an instruction: PUSH writes at sp, POP reads at sp + STACK_STEP, if the
move stays in the window (20_memory.md R63). -/
def stackAccess (i : Instr) (s : State) : Option (PortAccess 16) :=
  match i with
  | .push rn => if pushAllowed s.sp then some (.write s.sp (s.getReg rn)) else none
  | .pop _ =>
    let a := u16 ((s.sp.toNat : Int) + (hw.stackStep : Int))
    if popAllowed s.sp then some (.read a (s.stackWord a)) else none
  | .jmp _ | .jeq _ | .jlt _ | .jgt _ | .nop | .cmp _ _
  | .movImm _ _ | .movReg _ _ | .strImm _ _ | .strReg _ _ | .ldr _ _
  | .add _ _ _ | .sub _ _ _ | .mul _ _ _ | .and _ _ _ | .or _ _ _
  | .not _ _ | .xor _ _ _ | .shr _ _ | .shl _ _ | .ror _ _ | .rol _ _ | .halt
  | .unimplemented _ => none

/-- The condition an instruction reports, with its info (60_exceptions.md R252, R262). -/
def conditionOf (i : Instr) (s : State) : Option (Condition × Word) :=
  match i with
  | .strImm rm _ | .strReg rm _ | .ldr _ rm =>
    if dmInRange (s.getReg rm) then none else some (.dataAddressRange, s.getReg rm)
  | .push _ => if pushAllowed s.sp then none else some (.stackOverflow, s.sp)
  | .pop _ => if popAllowed s.sp then none else some (.stackUnderflow, s.sp)
  | .unimplemented low => some (.unimplementedOpcode, encode (.unimplemented low))
  | .jmp _ | .jeq _ | .jlt _ | .jgt _ | .nop | .cmp _ _ | .movImm _ _ | .movReg _ _
  | .add _ _ _ | .sub _ _ _ | .mul _ _ _ | .and _ _ _ | .or _ _ _
  | .not _ _ | .xor _ _ _ | .shr _ _ | .shl _ _ | .ror _ _ | .rol _ _ | .halt => none

/-- The transaction of the step that starts in `s` (R41). -/
def transaction (s : State) : Transaction :=
  match s.run with
  | .halted reason =>
    { pmRead := none, dataPort := none, stackPort := none, halted := true,
      haltReason := some reason, report := none }
  | .running =>
    if pcOutside s.pc then
      { pmRead := none, dataPort := none, stackPort := none, halted := false,
        haltReason := none, report := some (.pcBoundary, s.pc) }
    else
      { pmRead := some (BitVec.ofNat 10 (pmIndex s.pc), fetchWord s),
        dataPort := dataAccess (decodeWord (fetchWord s)) s,
        stackPort := stackAccess (decodeWord (fetchWord s)) s, halted := false,
        haltReason := none, report := conditionOf (decodeWord (fetchWord s)) s }

/-- `report_code`: 0 means "no condition" (60_exceptions.md R252). -/
def reportCode (t : Transaction) : Nat :=
  match t.report with
  | none => 0
  | some (c, _) => c.code

/-- A memory after the access on its port: a write sets one word, a read or no access nothing. -/
def applyDataPort (p : Option (PortAccess 8)) (s : State) : State :=
  match p with
  | some (.write a v) => s.setWordAt .dm a.toNat v
  | some (.read _ _) | none => s

/-- The stack store after the access on its port. -/
def applyStackPort (p : Option (PortAccess 16)) (s : State) : State :=
  match p with
  | some (.write a v) => s.setStackWord a v
  | some (.read _ _) | none => s

end Sys2Proof.Machine
end

