-- ==== Sys2Proof/Machine/Load.lean ====
section
/-! DEFINITION. The load, the block's entry contract (70_reset_and_hazards.md R283, R284). It
happens once, between reset and the first step; no instruction calls it. -/

namespace Sys2Proof.Machine

/-- The indices of an image are within `words` words and no two entries name one index. What a
loader does with any other image is its own business (R284, 93_implementation_defined.md I9). -/
def imageFits (words : Nat) (image : List (Nat × Word)) : Bool :=
  image.all (fun e => decide (e.1 < words)) && decide (image.map (fun e => e.1)).Nodup

/-- Write the words of an image, each at its index. -/
def writeImage (sp : Space) : List (Nat × Word) → Memory → Memory
  | [], m => m
  | (i, v) :: rest, m => writeImage sp rest (Memory.writeWord sp m i v)

/-- A program image names byte addresses: `PM[A/2] <- v` (R284). -/
def programIndices (program : List (Nat × Word)) : List (Nat × Word) :=
  program.map fun e => (e.1 / 2, e.2)

/-- The load: program words by byte address, data words by data memory index, every word that is
not loaded at its space's fill (R284; 20_memory.md R51, R56). `none` where the spec leaves the
outcome to the loader, and then no run starts (R285). -/
def State.load (program data : List (Nat × Word)) (s : State) : Option State :=
  if program.all (fun e => decide (e.1 % 2 = 0))
      && imageFits hw.pmWords (programIndices program) && imageFits hw.dmWords data then
    some { s with pm := writeImage .pm (programIndices program) [], dm := writeImage .dm data [] }
  else none

end Sys2Proof.Machine
end

