-- ==== Sys2Proof/Machine/Snapshot.lean ====
section
/-! DEFINITION. The exit snapshot, the block's exit contract (10_state.md R40). -/

namespace Sys2Proof.Machine

/-- The address of the k-th live stack entry, oldest first: `STACK_TOP − STACK_STEP * k` (R40). -/
def liveAddress (k : Nat) : Word := BitVec.ofNat 16 (hw.stackTop - hw.stackStep * k)

/-- How many entries are live: those at `STACK_TOP, …, sp + STACK_STEP` (R40). -/
def State.stackDepth (s : State) : Nat := (hw.stackTop - s.sp.toNat) / hw.stackStep

/-- The stack contents down to the current pointer, oldest first, empty when sp = STACK_TOP (R40). -/
def State.liveStack (s : State) : List Word :=
  (List.range s.stackDepth).map fun k => s.stackWord (liveAddress k)

/-- What the block exposes after Halted (R40). -/
structure Snapshot where
  regs : Vector Word 8
  flags : Flags
  pc : Word
  ir : Word
  sp : Word
  /-- The live stack entries. -/
  stack : List Word
  /-- Data memory, words 0 to `DM_WORDS − 1`. -/
  data : List Word
  reason : HaltReason
deriving DecidableEq, Repr

/-- The snapshot of a halted state; a run that has not halted gives none (R40; 40_engine_cycle.md
R121; 70_reset_and_hazards.md R287). -/
def snapshot (s : State) : Option Snapshot :=
  match s.run with
  | .running => none
  | .halted reason =>
    some { regs := s.regs, flags := s.flags, pc := s.pc, ir := s.ir, sp := s.sp,
           stack := s.liveStack, data := (List.range hw.dmWords).map (s.wordAt .dm),
           reason := reason }

/-- What a reporter may derive from program memory: the index of its first sentinel word. It is no
engine state and nothing reads it (10_state.md R37). -/
def firstSentinelIndex (s : State) : Option Nat :=
  (List.range hw.pmWords).find? fun i => decide (s.wordAt .pm i = hw.haltWord)

end Sys2Proof.Machine
end

