-- ==== Sys2Proof/Safety.lean ====
section
/-! DEFINITION. The words the statements are made of: what two states share, what an instruction may
write, when a run has ended and had no error, and the invariant of a step. -/

namespace Sys2Proof.Machine

/-! ## What an instruction leaves unchanged -/

/-- Every byte of every address space reads the same. -/
def SameMemory (s t : State) : Prop := ∀ sp a, t.byteAt sp a = s.byteAt sp a

/-- Every byte reads the same but those of word `i` of address space `sp`. -/
def SameMemoryExcept (sp : Space) (i : Nat) (s t : State) : Prop :=
  ∀ sp' a, ¬(sp' = sp ∧ (a = 2 * i ∨ a = 2 * i + 1)) → t.byteAt sp' a = s.byteAt sp' a

/-- Every general register is the same. -/
def SameRegs (s t : State) : Prop := ∀ r, t.getReg r = s.getReg r

/-- Every general register but `rd` is the same. -/
def SameRegsExcept (rd : RegIdx) (s t : State) : Prop := ∀ r, r ≠ rd → t.getReg r = s.getReg r

/-- pc, ir, the run state and the report stream are the same. -/
def SameControl (s t : State) : Prop :=
  t.pc = s.pc ∧ t.ir = s.ir ∧ t.run = s.run ∧ t.reports = s.reports

/-- `i` run in `s` answers a next state in which rd holds `r`, the flags are Z and N of `r`, C = `c`
and V = `v` (44_arith.md R190), and nothing else has changed. -/
def WritesAlu (i : Instr) (rd : RegIdx) (r : Word) (c v : Bool) (s : State) : Prop :=
  ∃ t, exec i s = .next t ∧ t.getReg rd = r ∧
    (t.flags.z = true ↔ r.toNat = 0) ∧ (t.flags.n = true ↔ 32768 ≤ r.toNat) ∧
    t.flags.c = c ∧ t.flags.v = v ∧
    SameRegsExcept rd s t ∧ t.sp = s.sp ∧ SameControl s t ∧ SameMemory s t

/-- `i` run in `s` answers a next state with the condition `c` reported for the word at pc, its
info `info` (60_exceptions.md R251), and nothing else changed (R253). -/
def OnlyReports (i : Instr) (c : Condition) (info : Word) (s : State) : Prop :=
  ∃ t, exec i s = .next t ∧ t.reports = s.reports ++ [⟨c, s.pc, s.ir, info⟩] ∧
    SameRegs s t ∧ t.flags = s.flags ∧ t.sp = s.sp ∧ t.pc = s.pc ∧ t.ir = s.ir ∧ t.run = s.run ∧
    SameMemory s t

/-- `i` run in `s` answers a next state whose pc is `target`, and nothing else has changed. -/
def OnlySetsPc (i : Instr) (target : Word) (s : State) : Prop :=
  ∃ t, exec i s = .next t ∧ t.pc = target ∧
    SameRegs s t ∧ t.flags = s.flags ∧ t.sp = s.sp ∧ t.ir = s.ir ∧ t.run = s.run ∧
    t.reports = s.reports ∧ SameMemory s t

/-- `i` run in `s` answers a next state in which rd holds `v`, and nothing else has changed. -/
def OnlyWritesReg (i : Instr) (rd : RegIdx) (v : Word) (s : State) : Prop :=
  ∃ t, exec i s = .next t ∧ t.getReg rd = v ∧
    SameRegsExcept rd s t ∧ t.flags = s.flags ∧ t.sp = s.sp ∧ SameControl s t ∧ SameMemory s t

/-- `i` run in `s` answers a next state in which word `k` of data memory holds `v`, and nothing else
has changed. -/
def OnlyWritesData (i : Instr) (k : Nat) (v : Word) (s : State) : Prop :=
  ∃ t, exec i s = .next t ∧ t.wordAt .dm k = v ∧ SameMemoryExcept .dm k s t ∧
    SameRegs s t ∧ t.flags = s.flags ∧ t.sp = s.sp ∧ SameControl s t

/-- `t` is `s` after a sentinel halt: ir holds the sentinel, the engine is Halted(SENTINEL), and
nothing else has changed (40_engine_cycle.md R113). -/
def SentinelHalted (s t : State) : Prop :=
  t.ir = 0xFFFF#16 ∧ t.run = .halted .sentinel ∧ t.pc = s.pc ∧ t.reports = s.reports ∧
    SameRegs s t ∧ t.flags = s.flags ∧ t.sp = s.sp ∧ SameMemory s t

/-- The next step fetches a word: the engine is Running and pc is inside program memory
(40_engine_cycle.md R111, R112; 20_memory.md R52). -/
def Fetches (s : State) : Prop := s.run = .running ∧ s.pc.toNat < 0x0800

/-! ## What an instruction may write -/

end Sys2Proof.Machine

namespace Sys2Proof

/-- The destination register (10_state.md R21). -/
def Instr.dest : Instr → Option RegIdx
  | .movImm rd _ | .movReg rd _ | .ldr rd _ | .add rd _ _ | .sub rd _ _ | .mul rd _ _
  | .and rd _ _ | .or rd _ _ | .not rd _ | .xor rd _ _ | .shr rd _ | .shl rd _ | .ror rd _
  | .rol rd _ | .pop rd => some rd
  | .jmp _ | .jeq _ | .jlt _ | .jgt _ | .nop | .push _ | .cmp _ _ | .strImm _ _ | .strReg _ _
  | .halt | .unimplemented _ => none

/-- The instruction writes the four flags (10_state.md R30). -/
def Instr.writesFlags : Instr → Bool
  | .add _ _ _ | .sub _ _ _ | .mul _ _ _ | .and _ _ _ | .or _ _ _ | .not _ _ | .xor _ _ _
  | .shr _ _ | .shl _ _ | .ror _ _ | .rol _ _ | .cmp _ _ => true
  | .jmp _ | .jeq _ | .jlt _ | .jgt _ | .nop | .push _ | .pop _ | .movImm _ _ | .movReg _ _
  | .strImm _ _ | .strReg _ _ | .ldr _ _ | .halt | .unimplemented _ => false

/-- Where a branch that is taken goes, before the engine's +2: its displacement (41_branch.md R131
to R135, JLT_COND = NEG). Zero for a branch not taken and for every other instruction. -/
def Instr.pcOffset (f : Machine.Flags) : Instr → Int
  | .jmp d => d.toInt
  | .jeq d => if f.z then d.toInt else 0
  | .jlt d => if f.n && !f.z then d.toInt else 0
  | .jgt d => if !f.c && !f.z then d.toInt else 0
  | .nop | .push _ | .pop _ | .cmp _ _ | .movImm _ _ | .movReg _ _ | .strImm _ _ | .strReg _ _
  | .ldr _ _ | .add _ _ _ | .sub _ _ _ | .mul _ _ _ | .and _ _ _ | .or _ _ _ | .not _ _
  | .xor _ _ _ | .shr _ _ | .shl _ _ | .ror _ _ | .rol _ _ | .halt | .unimplemented _ => 0

end Sys2Proof

namespace Sys2Proof.Machine

/-! ## Runs -/

/-- The run has ended (40_engine_cycle.md R121). -/
def Ended (s : State) : Prop := s.run ≠ .running

/-- The run so far had no error: no record with a code 1 to 5 (60_exceptions.md R254). -/
def NoErrors (s : State) : Prop := ∀ r ∈ s.reports, r.cond = .pcBoundary

/-! ## The invariant -/

/-- sp is even and inside the stack window (10_state.md R34; 20_memory.md R63). -/
abbrev StackPointerInWindow (s : State) : Prop :=
  s.sp.toNat % 2 = 0 ∧ 0x8100 ≤ s.sp.toNat ∧ s.sp.toNat ≤ 0x8200

/-- The three memories have their canonical form and lie within their spaces. -/
abbrev MemoriesCanonical (s : State) : Prop :=
  Memory.wf .pm s.pm ∧ Memory.wf .dm s.dm ∧ Memory.wf .stk s.stk

/-- The odd entries of the stack backing store are never written (20_memory.md R60, R62). -/
abbrev OddSlotsZero (s : State) : Prop := ∀ k < 128, s.wordAt .stk (2 * k + 1) = 0x0000#16

/-- A halted state shows why it halted (10_state.md R36; 40_engine_cycle.md R111, R113). -/
abbrev HaltReasonHolds (s : State) : Prop :=
  (s.run = .halted .boundary → 0x0800 ≤ s.pc.toNat) ∧
  (s.run = .halted .sentinel → s.pc.toNat < 0x0800 ∧ fetchWord s = 0xFFFF#16 ∧ s.ir = 0xFFFF#16)

/-- InvalidRegister is never reported (60_exceptions.md R255), and PcBoundary only by the step that
ended the run (R260). -/
abbrev ReportsAreReachable (s : State) : Prop :=
  (∀ r ∈ s.reports, r.cond ≠ .invalidRegister) ∧
  ((∃ r ∈ s.reports, r.cond = .pcBoundary) → s.run = .halted .boundary)

/-- The invariant that every step keeps. -/
abbrev Inv (s : State) : Prop :=
  StackPointerInWindow s ∧ MemoriesCanonical s ∧ OddSlotsZero s ∧ HaltReasonHolds s ∧
    ReportsAreReachable s

end Sys2Proof.Machine
end

