-- ==== Sys2Proof/Certificates/Slice0/Obligations.lean ====
section
/-! DEFINITION. The statements about the model, for the provers. OBLIGATIONS.json lists them with the
rules of spec/ they formalise. -/

open Sys2Proof Sys2Proof.Machine

/-! ## Reset and load -/

/-- 10_state.md R23 and R27: after reset every general register and pc are zero, and the first fetch
reads index 0, whatever program memory holds by then: the first step runs the word of index 0. -/
def Obligations.ResetValues : Prop :=
  (∀ r, State.reset.getReg r = 0x0000#16) ∧ State.reset.pc = 0x0000#16 ∧
  ∀ m : Memory,
    fetchWord { State.reset with pm := m } = Memory.readWord .pm m 0 ∧
    step { State.reset with pm := m } =
      executeWord (Memory.readWord .pm m 0) { State.reset with pm := m }

/-- The rest of 70_reset_and_hazards.md R281 but for sp (10_state.md R28, R33, R35, R38; 20_memory.md
R51, R56, R62; that an unlisted byte reads as its space's fill is log entry 2): after reset ir and
the flags are zero, program memory is filled with the sentinel, data memory and the stack store with
zero, the engine is Running and nothing is reported. -/
def Obligations.ResetMemoriesAndEngine : Prop :=
  State.reset.ir = 0x0000#16 ∧ State.reset.flags = ⟨false, false, false, false⟩ ∧
  (∀ i < 1024, State.reset.wordAt .pm i = 0xFFFF#16) ∧
  (∀ i < 256, State.reset.wordAt .dm i = 0x0000#16) ∧
  (∀ i < 256, State.reset.wordAt .stk i = 0x0000#16) ∧
  State.reset.run = .running ∧ State.reset.reports = []

/-- The spec's own choice (decision D4 of 92_eei_decisions.md, log entry 3): after reset
sp = STACK_TOP = 0x8200, the stack is empty, and POP is refused. -/
def Obligations.ResetStackIsEmptyAtTop : Prop :=
  State.reset.sp = 0x8200#16 ∧ State.reset.liveStack = [] ∧
    popAllowed State.reset.sp = false ∧ pushAllowed State.reset.sp = true

/-- With no program loaded the first step fetches the fill word and halts at pc = 0
(70_reset_and_hazards.md R285; ir after it is the spec's decision D12, log entry 13). -/
def Obligations.UnloadedResetHaltsAtOnce : Prop :=
  ∃ t, step State.reset = .next t ∧ SentinelHalted State.reset t

/-- The load contract of 70_reset_and_hazards.md R284: the words of the two images stand in program
memory (byte address / 2) and in data memory, every other word of them holds its fill, and nothing
else changes. -/
def Obligations.LoadPlacesImageAndFillsRest : Prop :=
  ∀ (program data : List (Nat × Word)) (s t : State), s.load program data = some t →
    (∀ e ∈ program, t.wordAt .pm (e.1 / 2) = e.2) ∧
    (∀ i, (∀ e ∈ program, e.1 / 2 ≠ i) → t.wordAt .pm i = 0xFFFF#16) ∧
    (∀ e ∈ data, t.wordAt .dm e.1 = e.2) ∧
    (∀ i, (∀ e ∈ data, e.1 ≠ i) → t.wordAt .dm i = 0x0000#16) ∧
    (∀ i, t.wordAt .stk i = s.wordAt .stk i) ∧
    SameRegs s t ∧ t.flags = s.flags ∧ t.sp = s.sp ∧ SameControl s t

/-! ## Encoding -/

/-- Words written out from 30_encoding.md R86 and R87 (the list of 95_test_vectors.md, 2.1) decode
to the instructions they stand for. -/
def Obligations.WrittenWordsDecode : Prop :=
  decodeWord 0b1111111111111111#16 = .halt ∧
  decodeWord 0b1111000000000000#16 = .unimplemented 0x000#12 ∧
  decodeWord 0b0000000000000000#16 = .nop ∧
  decodeWord 0b0000101111111100#16 = .jmp 0x0FF#9 ∧
  decodeWord 0b0000110000000001#16 = .jeq 0x100#9 ∧
  decodeWord 0b0000000000000101#16 = .push 1 ∧
  decodeWord 0b0000001000000010#16 = .pop 2 ∧
  decodeWord 0b0000000000101011#16 = .cmp 1 2 ∧
  decodeWord 0b0001101000000011#16 = .movImm 2 0x03#8 ∧
  decodeWord 0b0010100000100101#16 = .strImm 1 0x25#8 ∧
  decodeWord 0b0100001100101000#16 = .add 3 1 2 ∧
  decodeWord 0b1110001000100000#16 = .rol 2 1

/-- 30_encoding.md R89 with the fields of R81: after the sentinel test, a word is an instruction
exactly if it agrees with the instruction's match under its mask, and its operands are the word's
bits. That the unused bits are ignored is its decision D10 (log entry 11), the address register of
STR #imm its decision D11 (log entry 12). -/
def Obligations.MaskAndMatchSelectInstruction : Prop :=
  ∀ w : Word,
    let rd : RegIdx := (w.extractLsb' 8 3).toFin
    let rm : RegIdx := (w.extractLsb' 5 3).toFin
    let rn : RegIdx := (w.extractLsb' 2 3).toFin
    let disp : BitVec 9 := w.extractLsb' 2 9
    let imm : Byte := w.extractLsb' 0 8
    (decodeWord w = .halt ↔ w = 0xFFFF#16) ∧
    (decodeWord w = .jmp disp ↔ w &&& 0xF803#16 = 0x0800#16) ∧
    (decodeWord w = .jeq disp ↔ w &&& 0xF803#16 = 0x0801#16) ∧
    (decodeWord w = .jlt disp ↔ w &&& 0xF803#16 = 0x0802#16) ∧
    (decodeWord w = .jgt disp ↔ w &&& 0xF803#16 = 0x0803#16) ∧
    (decodeWord w = .nop ↔ w &&& 0xF803#16 = 0x0000#16) ∧
    (decodeWord w = .push rn ↔ w &&& 0xF803#16 = 0x0001#16) ∧
    (decodeWord w = .pop rd ↔ w &&& 0xF803#16 = 0x0002#16) ∧
    (decodeWord w = .cmp rm rn ↔ w &&& 0xF803#16 = 0x0003#16) ∧
    (decodeWord w = .movImm rd imm ↔ w &&& 0xF800#16 = 0x1800#16) ∧
    (decodeWord w = .movReg rd rm ↔ w &&& 0xF800#16 = 0x1000#16) ∧
    (decodeWord w = .strImm rm imm ↔ w &&& 0xF800#16 = 0x2800#16) ∧
    (decodeWord w = .strReg rm rn ↔ w &&& 0xF800#16 = 0x2000#16) ∧
    (decodeWord w = .ldr rd rm ↔ w &&& 0xF000#16 = 0x3000#16) ∧
    (decodeWord w = .add rd rm rn ↔ w &&& 0xF000#16 = 0x4000#16) ∧
    (decodeWord w = .sub rd rm rn ↔ w &&& 0xF000#16 = 0x5000#16) ∧
    (decodeWord w = .mul rd rm rn ↔ w &&& 0xF000#16 = 0x6000#16) ∧
    (decodeWord w = .and rd rm rn ↔ w &&& 0xF000#16 = 0x7000#16) ∧
    (decodeWord w = .or rd rm rn ↔ w &&& 0xF000#16 = 0x8000#16) ∧
    (decodeWord w = .not rd rm ↔ w &&& 0xF000#16 = 0x9000#16) ∧
    (decodeWord w = .xor rd rm rn ↔ w &&& 0xF000#16 = 0xA000#16) ∧
    (decodeWord w = .shr rd rm ↔ w &&& 0xF000#16 = 0xB000#16) ∧
    (decodeWord w = .shl rd rm ↔ w &&& 0xF000#16 = 0xC000#16) ∧
    (decodeWord w = .ror rd rm ↔ w &&& 0xF000#16 = 0xD000#16) ∧
    (decodeWord w = .rol rd rm ↔ w &&& 0xF000#16 = 0xE000#16) ∧
    (decodeWord w = .unimplemented (w.extractLsb' 0 12) ↔
      w &&& 0xF000#16 = 0xF000#16 ∧ w ≠ 0xFFFF#16)

/-- Every pair of bytes decodes, to a well-formed instruction (30_encoding.md R85). -/
def Obligations.EveryWordDecodesWellFormed : Prop :=
  ∀ (lo hi : Byte) (rest : List Byte), ∃ i, decode (lo :: hi :: rest) = .ok (i, rest) ∧ i.wf = true

/-- Decoding the encoding of a well-formed instruction gives it back, with every operand at every
value its field admits (30_encoding.md R86, R87). -/
def Obligations.DecodeOfEncodeIsInstruction : Prop :=
  ∀ (i : Instr) (rest : List Byte), i.wf = true →
    decode (encodeBytes i ++ rest) = .ok (i, rest)

/-- The bits R91 of 30_encoding.md lists as ignored (the spec's decision D10, log entry 11) do not
matter: a word that agrees on the used bits decodes to the same instruction, and encoding what was
decoded gives back exactly the used bits. -/
def Obligations.IgnoredBitsDoNotMatter : Prop :=
  (∀ w w' : Word, w' &&& (decodeWord w).usedBits = w &&& (decodeWord w).usedBits →
    decodeWord w' = decodeWord w) ∧
  ∀ w : Word, encode (decodeWord w) = w &&& (decodeWord w).usedBits

/-- The displacement of a branch is w[10:2] read as a signed number, −256 to 255, and a displacement
n is encoded as n mod 512 (30_encoding.md R84). -/
def Obligations.DisplacementIsSignedNineBits : Prop :=
  (∀ w : Word, (dispOperand (fieldDisp w)).toInt
      = ((w.extractLsb' 2 9).toNat : Int) - (if w.getLsbD 10 then 512 else 0)) ∧
  (∀ w : Word, -256 ≤ (dispOperand (fieldDisp w)).toInt ∧ (dispOperand (fieldDisp w)).toInt ≤ 255) ∧
  ∀ n : Int, -256 ≤ n → n ≤ 255 → ∀ cond : BitVec 2,
    (((encodeBR (BitVec.ofInt 9 n) cond).extractLsb' 2 9).toNat : Int) = n % 512 ∧
    (dispOperand (fieldDisp (encodeBR (BitVec.ofInt 9 n) cond))).toInt = n

/-! ## The step -/

/-- A step runs the decoded instruction (40_engine_cycle.md R114 to R116): where the two bytes of
the word at pc decode to a well-formed instruction, the step writes ir, runs `exec`, and adds 2 to
pc unless the engine has halted. -/
def Obligations.StepRunsDecodedInstruction : Prop :=
  ∀ (s : State) (i : Instr), s.run = .running → s.pc.toNat < 0x0800 →
    decode [s.byteAt .pm (2 * (s.pc.toNat / 2)), s.byteAt .pm (2 * (s.pc.toNat / 2) + 1)]
      = .ok (i, []) → i.wf = true →
    step s = match exec i (s.setIr (s.wordAt .pm (s.pc.toNat / 2))) with
      | .next t => .next (if t.run = .running then t.setPc (t.pc + 2#16) else t)
      | .fault f => .fault f
      | .refused r => .refused r

/-- No instruction and no step ever stops with a fault or a refusal (60_exceptions.md R250). From
Halted the spec has no further step (40_engine_cycle.md R119); that the model's step answers a next
state there too is the model's choice (log entry 7). -/
def Obligations.EveryInstructionAndStepCompletes : Prop :=
  (∀ (i : Instr) (s : State), ∃ t, exec i s = .next t) ∧ ∀ s : State, ∃ t, step s = .next t

/-- The model's choice (log entry 7) for 40_engine_cycle.md R119, "the state is final": from Halted
every step, and so every run, answers the same state. -/
def Obligations.HaltedStateIsFinal : Prop :=
  ∀ (s : State) (r : HaltReason) (n : Nat), s.run = .halted r → Sys2Proof.core.run n s = .next s

/-- The boundary halt (40_engine_cycle.md R111, 60_exceptions.md R260; its timing and its pc and ir
are the spec's decision D16, log entry 14). The form of a record is the spec's decision D14 (log
entry 8). -/
def Obligations.BoundaryHaltReportsAndStops : Prop :=
  ∀ s : State, s.run = .running → 0x0800 ≤ s.pc.toNat →
    ∃ t, step s = .next t ∧ t.run = .halted .boundary ∧
      t.reports = s.reports ++ [⟨.pcBoundary, s.pc, s.ir, s.pc⟩] ∧
      t.pc = s.pc ∧ t.ir = s.ir ∧ SameRegs s t ∧ t.flags = s.flags ∧ t.sp = s.sp ∧ SameMemory s t

/-- The halt sentinel (40_engine_cycle.md R113; ir ← 0xFFFF is the spec's decision D12, log entry
13): the meaning of HALT, and the step that fetches 0xFFFF. -/
def Obligations.SentinelHaltStops : Prop :=
  (∀ s : State, ∃ t, exec .halt s = .next t ∧ SentinelHalted s t) ∧
  ∀ s : State, s.run = .running → s.pc.toNat < 0x0800 → fetchWord s = 0xFFFF#16 →
    ∃ t, step s = .next t ∧ SentinelHalted s t

/-- The engine leaves Running in exactly two ways (40_engine_cycle.md R119: "the only termination
paths are the halt sentinel and the implicit program-memory boundary"). -/
def Obligations.OnlySentinelAndBoundaryEndRun : Prop :=
  ∀ (s t : State), s.run = .running → step s = .next t → ∀ r : HaltReason,
    t.run = .halted r ↔
      (r = .boundary ∧ 0x0800 ≤ s.pc.toNat) ∨
      (r = .sentinel ∧ s.pc.toNat < 0x0800 ∧ fetchWord s = 0xFFFF#16)

/-- The unimplemented class (40_engine_cycle.md R117, 60_exceptions.md R259; that ir and pc move on
is the spec's decision D13, log entry 13): the meaning, and the step of such a word. The form of a
record is the spec's decision D14 (log entry 8). -/
def Obligations.UnimplementedWordIsReported : Prop :=
  (∀ (low : BitVec 12) (s : State),
    OnlyReports (.unimplemented low) .unimplementedOpcode (0xF000#16 ||| low.zeroExtend 16) s) ∧
  ∀ s : State, s.run = .running → s.pc.toNat < 0x0800 →
    fetchWord s &&& 0xF000#16 = 0xF000#16 → fetchWord s ≠ 0xFFFF#16 →
    ∃ t, step s = .next t ∧
      t.reports = s.reports ++ [⟨.unimplementedOpcode, s.pc, fetchWord s, fetchWord s⟩] ∧
      t.pc = s.pc + 2#16 ∧ t.ir = fetchWord s ∧ t.run = .running ∧
      SameRegs s t ∧ t.flags = s.flags ∧ t.sp = s.sp ∧ SameMemory s t

/-- The pc after every executed word (10_state.md R25, 40_engine_cycle.md R116, 41_branch.md R131,
whose base and scale are the spec's decision D6, log entry 10): 2 further, and for a branch that is
taken its displacement further, mod 2^16. When a branch is taken is 41_branch.md R133 to R135, with
`JLT_COND` = NEG its decision D7 (log entry 5) and JGT's literal test its decision D8 (log entry 6);
that an unimplemented word writes ir and moves pc is its decision D13 (log entry 13). -/
def Obligations.ExecutedWordAdvancesPc : Prop :=
  ∀ s : State, s.run = .running → s.pc.toNat < 0x0800 → fetchWord s ≠ 0xFFFF#16 →
    ∃ t, step s = .next t ∧ t.ir = fetchWord s ∧ t.run = .running ∧
      t.pc = BitVec.ofInt 16
        ((s.pc.toNat : Int) + (decodeWord (fetchWord s)).pcOffset s.flags + 2)

/-- The fetch rounds pc / 2 down (20_memory.md R52; for an odd pc this is the spec's decision D5,
log entry 9): bit 0 of pc does not matter to it. -/
def Obligations.FetchRoundsOddPcDown : Prop :=
  (∀ s : State, fetchWord s = s.wordAt .pm (s.pc.toNat / 2)) ∧
  (∀ s : State, fetchWord (s.setPc (s.pc ||| 0x0001#16)) = fetchWord (s.setPc (s.pc &&& 0xFFFE#16))) ∧
  ∀ pc : Word, pcOutside pc = true ↔ 0x07FF < pc.toNat

/-! ## Branches -/

/-- JMP, JEQ and JGT (41_branch.md R132, R133, R135): which words they are, and that they set pc by
their flag test and change nothing else. That the displacement is unscaled and added to the branch's
own address is the spec's decision D6 (log entry 10), JGT's literal test its decision D8 (log entry
6). -/
def Obligations.JmpJeqJgtSetPc : Prop :=
  (∀ w : Word, w &&& 0xF803#16 = 0x0800#16 → decodeWord w = .jmp (w.extractLsb' 2 9)) ∧
  (∀ w : Word, w &&& 0xF803#16 = 0x0801#16 → decodeWord w = .jeq (w.extractLsb' 2 9)) ∧
  (∀ w : Word, w &&& 0xF803#16 = 0x0803#16 → decodeWord w = .jgt (w.extractLsb' 2 9)) ∧
  (∀ (d : BitVec 9) (s : State), OnlySetsPc (.jmp d) (s.pc + d.signExtend 16) s) ∧
  (∀ (d : BitVec 9) (s : State),
    OnlySetsPc (.jeq d) (if s.flags.z = true then s.pc + d.signExtend 16 else s.pc) s) ∧
  ∀ (d : BitVec 9) (s : State),
    OnlySetsPc (.jgt d)
      (if s.flags.c = false ∧ s.flags.z = false then s.pc + d.signExtend 16 else s.pc) s

/-- JLT (41_branch.md R134). `JLT_COND` = NEG for this hardware is the spec's decision D7 (log entry
5), so the meaning under CARRY is stated beside it. The base and scale of the displacement are its
decision D6 (log entry 10). -/
def Obligations.JltSetsPcUnderItsParameter : Prop :=
  (∀ (d : BitVec 9) (s : State),
    OnlySetsPc (.jlt d)
      (if s.flags.n = true ∧ s.flags.z = false then s.pc + d.signExtend 16 else s.pc) s) ∧
  (∀ (d : BitVec 9) (s : State), exec (.jlt d) s = jltUnder .neg d s) ∧
  ∀ (d : BitVec 9) (s : State), jltUnder .carry d s =
    .next (if s.flags.c = true ∧ s.flags.z = false then s.setPc (s.pc + d.signExtend 16) else s)

/-- The table of 41_branch.md R136: what each branch decides right after `CMP Rm, Rn`, as a relation
of the two registers. JGT's literal test is the spec's decision D8 (log entry 6), JLT's parameter
its decision D7 (log entry 5), the base and scale of the displacement its decision D6 (log entry
10). -/
def Obligations.BranchesDecideAfterCompare : Prop :=
  ∀ (rm rn : RegIdx) (d : BitVec 9) (s : State),
    let a := s.getReg rm
    let b := s.getReg rn
    let target := s.pc + d.signExtend 16
    ∃ t, exec (.cmp rm rn) s = .next t ∧
      (∃ u, exec (.jmp d) t = .next u ∧ u.pc = target) ∧
      (∃ u, exec (.jeq d) t = .next u ∧ u.pc = if a = b then target else s.pc) ∧
      (∃ u, jltUnder .neg d t = .next u ∧
        u.pc = if 32768 ≤ ((a.toNat : Int) - b.toNat) % 65536 then target else s.pc) ∧
      (∃ u, jltUnder .carry d t = .next u ∧ u.pc = if b.toNat < a.toNat then target else s.pc) ∧
      (∃ u, exec (.jgt d) t = .next u ∧ u.pc = if a.toNat < b.toNat then target else s.pc)

/-- `JMP −2`, the word 0x0FF8, branches to itself: a run that fetches it never halts, for any number
of steps (40_engine_cycle.md R120). It rests on the spec's decision D6 (log entry 10). -/
def Obligations.JumpToItselfNeverHalts : Prop :=
  ∀ (s : State) (n : Nat), s.run = .running → s.pc.toNat < 0x0800 → fetchWord s = 0x0FF8#16 →
    Sys2Proof.core.run (n + 1) s = .next (s.setIr 0x0FF8#16)

/-! ## NOP, PUSH, POP, CMP -/

/-- NOP (42_opcode0_stack_cmp.md R150): which words it is, that it changes nothing, and that its step
changes pc and ir alone. That it emits no trace record, which R150 would allow, is the model's choice
(log entry 8). -/
def Obligations.NopChangesNothing : Prop :=
  (∀ w : Word, w &&& 0xF803#16 = 0x0000#16 → decodeWord w = .nop) ∧
  (∀ s : State, exec .nop s = .next s) ∧
  ∀ s : State, s.run = .running → s.pc.toNat < 0x0800 → fetchWord s &&& 0xF803#16 = 0x0000#16 →
    step s = .next ((s.setIr (fetchWord s)).setPc (s.pc + 2#16))

/-- PUSH (42_opcode0_stack_cmp.md R151; where the window ends is the spec's decision D21, log entry
16). The form of a record is the spec's decision D14 (log entry 8). -/
def Obligations.PushStoresThenMovesDown : Prop :=
  (∀ (rn : RegIdx) (s : State), 0x8102 ≤ s.sp.toNat →
    ∃ t, exec (.push rn) s = .next t ∧ t.sp.toNat = s.sp.toNat - 2 ∧
      stackIndex s.sp = (s.sp.toNat - 0x8100) % 256 ∧
      t.wordAt .stk (stackIndex s.sp) = s.getReg rn ∧
      SameMemoryExcept .stk (stackIndex s.sp) s t ∧
      SameRegs s t ∧ t.flags = s.flags ∧ SameControl s t) ∧
  ∀ (rn : RegIdx) (s : State), s.sp.toNat < 0x8102 →
    OnlyReports (.push rn) .stackOverflow s.sp s

/-- POP (42_opcode0_stack_cmp.md R152; where the window ends is the spec's decision D21, log entry
16). The form of a record is the spec's decision D14 (log entry 8). -/
def Obligations.PopMovesUpThenLoads : Prop :=
  (∀ (rd : RegIdx) (s : State), s.sp.toNat ≤ 0x81FE →
    ∃ t, exec (.pop rd) s = .next t ∧ t.sp.toNat = s.sp.toNat + 2 ∧
      t.getReg rd = s.wordAt .stk (stackIndex (s.sp + 2#16)) ∧
      SameRegsExcept rd s t ∧ t.flags = s.flags ∧ SameControl s t ∧ SameMemory s t) ∧
  ∀ (rd : RegIdx) (s : State), 0x81FE < s.sp.toNat →
    OnlyReports (.pop rd) .stackUnderflow s.sp s

/-- The PUSH/POP law (42_opcode0_stack_cmp.md R153): from any sp in the window with a free slot.
Where the window ends is the spec's decision D21 (log entry 16). -/
def Obligations.PopAfterPushReturnsValue : Prop :=
  ∀ (rn rd : RegIdx) (s : State), 0x8102 ≤ s.sp.toNat → s.sp.toNat ≤ 0x8200 →
    ∃ t u, exec (.push rn) s = .next t ∧ exec (.pop rd) t = .next u ∧
      u.getReg rd = s.getReg rn ∧ SameRegsExcept rd s u ∧ u.sp = s.sp ∧ u.flags = s.flags ∧
      SameControl s u

/-- The stack unit is a bounded last-in first-out list of 128 words (20_memory.md R60, R63;
42_opcode0_stack_cmp.md R153): on the live entries PUSH appends or, when full, reports; POP takes
the last entry off or, when empty, reports. The form of a record is the spec's decision D14 (log
entry 8). That the window is inclusive at both ends is its decision D21 (log entry 16). -/
def Obligations.StackUnitIsBoundedList : Prop :=
  (∀ (rn : RegIdx) (s : State), StackPointerInWindow s →
    ∃ t, exec (.push rn) s = .next t ∧ StackPointerInWindow t ∧
      (s.liveStack.length < 128 →
        t.liveStack = s.liveStack ++ [s.getReg rn] ∧ t.reports = s.reports) ∧
      (s.liveStack.length = 128 →
        t.liveStack = s.liveStack ∧
          t.reports = s.reports ++ [⟨.stackOverflow, s.pc, s.ir, 0x8100#16⟩])) ∧
  (∀ (rd : RegIdx) (s : State), StackPointerInWindow s →
    ∃ t, exec (.pop rd) s = .next t ∧ StackPointerInWindow t ∧
      (∀ l v, s.liveStack = l ++ [v] →
        t.liveStack = l ∧ t.getReg rd = v ∧ t.reports = s.reports) ∧
      (s.liveStack = [] →
        t.liveStack = [] ∧ t.getReg rd = s.getReg rd ∧
          t.reports = s.reports ++ [⟨.stackUnderflow, s.pc, s.ir, 0x8200#16⟩])) ∧
  ∀ s : State, StackPointerInWindow s → s.liveStack.length ≤ 128

/-- CMP (42_opcode0_stack_cmp.md R154): which words it is, the four flags, and nothing else. -/
def Obligations.CmpSetsFlagsOnly : Prop :=
  (∀ w : Word, w &&& 0xF803#16 = 0x0003#16 →
    decodeWord w = .cmp ((w.extractLsb' 5 3).toFin) ((w.extractLsb' 2 3).toFin)) ∧
  ∀ (rm rn : RegIdx) (s : State),
    let a := s.getReg rm
    let b := s.getReg rn
    let r : Word := BitVec.ofInt 16 ((a.toNat : Int) - b.toNat)
    ∃ t, exec (.cmp rm rn) s = .next t ∧
      (t.flags.z = true ↔ r = 0x0000#16) ∧ (t.flags.n = true ↔ r.msb = true) ∧
      (t.flags.c = true ↔ b.toNat ≤ a.toNat) ∧
      (t.flags.v = true ↔ a.msb ≠ b.msb ∧ r.msb ≠ a.msb) ∧
      SameRegs s t ∧ t.sp = s.sp ∧ SameControl s t ∧ SameMemory s t

/-! ## MOV, STR, LDR -/

/-- MOV Rd, #imm and MOV Rd, Rm (43_move_memory.md R170, R171): which words they are, the value
written, and nothing else. -/
def Obligations.MovWritesRegister : Prop :=
  (∀ w : Word, w &&& 0xF800#16 = 0x1800#16 →
    decodeWord w = .movImm ((w.extractLsb' 8 3).toFin) (w.extractLsb' 0 8)) ∧
  (∀ w : Word, w &&& 0xF800#16 = 0x1000#16 →
    decodeWord w = .movReg ((w.extractLsb' 8 3).toFin) ((w.extractLsb' 5 3).toFin)) ∧
  (∀ (rd : RegIdx) (imm : Byte) (s : State),
    OnlyWritesReg (.movImm rd imm) rd (BitVec.ofNat 16 imm.toNat) s) ∧
  ∀ (rd rm : RegIdx) (s : State), OnlyWritesReg (.movReg rd rm) rd (s.getReg rm) s

/-- STR [Rm], #imm (43_move_memory.md R172). That the address register is imm[7:5] is the spec's
decision D11 (30_encoding.md R92, log entry 12). The form of a record is the spec's decision D14
(log entry 8). That the whole 16-bit address is compared is its decision D27 (log entry 17). -/
def Obligations.StrImmWritesOneDataWord : Prop :=
  (∀ w : Word, w &&& 0xF800#16 = 0x2800#16 →
    decodeWord w = .strImm ((w.extractLsb' 5 3).toFin) (w.extractLsb' 0 8)) ∧
  (∀ (rm : RegIdx) (imm : Byte) (s : State), (s.getReg rm).toNat < 256 →
    OnlyWritesData (.strImm rm imm) (s.getReg rm).toNat (BitVec.ofNat 16 imm.toNat) s) ∧
  ∀ (rm : RegIdx) (imm : Byte) (s : State), 256 ≤ (s.getReg rm).toNat →
    OnlyReports (.strImm rm imm) .dataAddressRange (s.getReg rm) s

/-- STR [Rm], Rn (43_move_memory.md R173): which words it is, the word stored, the address out of
range, and nothing else. The form of a record is the spec's decision D14 (log entry 8). That the
whole 16-bit address is compared is its decision D27 (log entry 17). -/
def Obligations.StrRegWritesOneDataWord : Prop :=
  (∀ w : Word, w &&& 0xF800#16 = 0x2000#16 →
    decodeWord w = .strReg ((w.extractLsb' 5 3).toFin) ((w.extractLsb' 2 3).toFin)) ∧
  (∀ (rm rn : RegIdx) (s : State), (s.getReg rm).toNat < 256 →
    OnlyWritesData (.strReg rm rn) (s.getReg rm).toNat (s.getReg rn) s) ∧
  ∀ (rm rn : RegIdx) (s : State), 256 ≤ (s.getReg rm).toNat →
    OnlyReports (.strReg rm rn) .dataAddressRange (s.getReg rm) s

/-- LDR Rd, [Rm] (43_move_memory.md R174): which words it is, the word loaded, the address out of
range, and nothing else. The form of a record is the spec's decision D14 (log entry 8). That the
whole 16-bit address is compared is its decision D27 (log entry 17). -/
def Obligations.LdrReadsOneDataWord : Prop :=
  (∀ w : Word, w &&& 0xF000#16 = 0x3000#16 →
    decodeWord w = .ldr ((w.extractLsb' 8 3).toFin) ((w.extractLsb' 5 3).toFin)) ∧
  (∀ (rd rm : RegIdx) (s : State), (s.getReg rm).toNat < 256 →
    OnlyWritesReg (.ldr rd rm) rd (s.wordAt .dm (s.getReg rm).toNat) s) ∧
  ∀ (rd rm : RegIdx) (s : State), 256 ≤ (s.getReg rm).toNat →
    OnlyReports (.ldr rd rm) .dataAddressRange (s.getReg rm) s

/-- A load from the word just stored returns it, and a load from any other word returns what it held
(20_memory.md R57, R70). -/
def Obligations.LoadAfterStoreReturnsStoredWord : Prop :=
  ∀ (rm rn rd ra : RegIdx) (s : State), (s.getReg rm).toNat < 256 → (s.getReg ra).toNat < 256 →
    ∃ t u, exec (.strReg rm rn) s = .next t ∧ exec (.ldr rd ra) t = .next u ∧
      u.getReg rd = if s.getReg ra = s.getReg rm then s.getReg rn
        else s.wordAt .dm (s.getReg ra).toNat

/-! ## The ALU -/

/-- ADD, SUB and MUL (44_arith.md R192, R193, R194): the result, the four flags, and nothing else.
That the operands are the values before rd is written, also when rd is one of them, is the spec's
decision D9 (R191, log entry 15). -/
def Obligations.AddSubMulWriteResultAndFlags : Prop :=
  (∀ (rd rm rn : RegIdx) (s : State),
    let a := s.getReg rm
    let b := s.getReg rn
    let r : Word := BitVec.ofNat 16 (a.toNat + b.toNat)
    WritesAlu (.add rd rm rn) rd r (decide (0xFFFF < a.toNat + b.toNat))
      (a.msb == b.msb && r.msb != a.msb) s) ∧
  (∀ (rd rm rn : RegIdx) (s : State),
    let a := s.getReg rm
    let b := s.getReg rn
    let r : Word := BitVec.ofInt 16 ((a.toNat : Int) - b.toNat)
    WritesAlu (.sub rd rm rn) rd r (decide (b.toNat ≤ a.toNat))
      (a.msb != b.msb && r.msb != a.msb) s) ∧
  ∀ (rd rm rn : RegIdx) (s : State),
    let p := (s.getReg rm).toNat * (s.getReg rn).toNat
    WritesAlu (.mul rd rm rn) rd (BitVec.ofNat 16 p) (decide (0xFFFF < p)) (decide (0xFFFF < p)) s

/-- The laws of 44_arith.md R196, for the operands of every ADD, SUB and CMP: when ADD sets C and Z,
and when SUB and CMP set C and N. That the operands are the values before rd is written, also when rd
is one of them, is the spec's decision D9 (R191, log entry 15). -/
def Obligations.CarryZeroNegativeLaws : Prop :=
  ∀ (rd rm rn : RegIdx) (s : State),
    let a := (s.getReg rm).toNat
    let b := (s.getReg rn).toNat
    (∃ t, exec (.add rd rm rn) s = .next t ∧
      (t.flags.c = true ↔ 0xFFFF < a + b) ∧ (t.flags.z = true ↔ (a + b) % 65536 = 0)) ∧
    (∃ t, exec (.sub rd rm rn) s = .next t ∧
      (t.flags.c = true ↔ b ≤ a) ∧ (t.flags.n = true ↔ 32768 ≤ ((a : Int) - b) % 65536)) ∧
    ∃ t, exec (.cmp rm rn) s = .next t ∧
      (t.flags.c = true ↔ b ≤ a) ∧ (t.flags.n = true ↔ 32768 ≤ ((a : Int) - b) % 65536)

/-- V reports signed overflow (44_arith.md R192, R193, R195): after ADD, SUB and CMP it is set exactly
when the two's-complement sum or difference lies outside −32768 to 32767. That the operands are the
values before rd is written, also when rd is one of them, is the spec's decision D9 (R191, log entry
15). -/
def Obligations.OverflowFlagIsSignedOverflow : Prop :=
  ∀ (rd rm rn : RegIdx) (s : State),
    let x := (s.getReg rm).toInt
    let y := (s.getReg rn).toInt
    (∃ t, exec (.add rd rm rn) s = .next t ∧
      (t.flags.v = true ↔ x + y < -32768 ∨ 32767 < x + y)) ∧
    (∃ t, exec (.sub rd rm rn) s = .next t ∧
      (t.flags.v = true ↔ x - y < -32768 ∨ 32767 < x - y)) ∧
    ∃ t, exec (.cmp rm rn) s = .next t ∧
      (t.flags.v = true ↔ x - y < -32768 ∨ 32767 < x - y)

/-- AND, OR, NOT and XOR (45_logic.md R210 to R213): which words they are, the result, the flags with
C = V = 0, and nothing else. -/
def Obligations.LogicWritesResultClearsCarry : Prop :=
  (∀ w : Word,
    let rd : RegIdx := (w.extractLsb' 8 3).toFin
    let rm : RegIdx := (w.extractLsb' 5 3).toFin
    let rn : RegIdx := (w.extractLsb' 2 3).toFin
    (w &&& 0xF000#16 = 0x7000#16 → decodeWord w = .and rd rm rn) ∧
    (w &&& 0xF000#16 = 0x8000#16 → decodeWord w = .or rd rm rn) ∧
    (w &&& 0xF000#16 = 0x9000#16 → decodeWord w = .not rd rm) ∧
    (w &&& 0xF000#16 = 0xA000#16 → decodeWord w = .xor rd rm rn)) ∧
  ∀ (rd rm rn : RegIdx) (s : State),
    let a := s.getReg rm
    let b := s.getReg rn
    WritesAlu (.and rd rm rn) rd (a &&& b) false false s ∧
    WritesAlu (.or rd rm rn) rd (a ||| b) false false s ∧
    WritesAlu (.not rd rm) rd (0xFFFF#16 - a) false false s ∧
    WritesAlu (.xor rd rm rn) rd (a ^^^ b) false false s

/-- SHR, SHL, ROR and ROL (46_shift_rotate.md R230 to R233): which words they are, the result as a
number, C from the bit that leaves the operand, V = 0, and nothing else. -/
def Obligations.ShiftsMoveByOneBit : Prop :=
  (∀ w : Word,
    let rd : RegIdx := (w.extractLsb' 8 3).toFin
    let rm : RegIdx := (w.extractLsb' 5 3).toFin
    (w &&& 0xF000#16 = 0xB000#16 → decodeWord w = .shr rd rm) ∧
    (w &&& 0xF000#16 = 0xC000#16 → decodeWord w = .shl rd rm) ∧
    (w &&& 0xF000#16 = 0xD000#16 → decodeWord w = .ror rd rm) ∧
    (w &&& 0xF000#16 = 0xE000#16 → decodeWord w = .rol rd rm)) ∧
  ∀ (rd rm : RegIdx) (s : State),
    let a := (s.getReg rm).toNat
    WritesAlu (.shr rd rm) rd (BitVec.ofNat 16 (a / 2)) (decide (a % 2 = 1)) false s ∧
    WritesAlu (.shl rd rm) rd (BitVec.ofNat 16 (2 * a)) (decide (32768 ≤ a)) false s ∧
    WritesAlu (.ror rd rm) rd (BitVec.ofNat 16 (a / 2 + 32768 * (a % 2))) (decide (a % 2 = 1))
      false s ∧
    WritesAlu (.rol rd rm) rd (BitVec.ofNat 16 (2 * a % 65536 + a / 32768)) (decide (32768 ≤ a))
      false s

/-- The rotate law (46_shift_rotate.md R234): ROR and ROL undo each other, and sixteen of either
return every value to itself. -/
def Obligations.RotatesAreInverse : Prop :=
  (∀ (rd rm : RegIdx) (s : State),
    (∃ t u, exec (.rol rd rm) s = .next t ∧ exec (.ror rd rd) t = .next u ∧
      u.getReg rd = s.getReg rm) ∧
    ∃ t u, exec (.ror rd rm) s = .next t ∧ exec (.rol rd rd) t = .next u ∧
      u.getReg rd = s.getReg rm) ∧
  ∀ a : Word, (fun x => (aluRol x).result)^[16] a = a ∧ (fun x => (aluRor x).result)^[16] a = a

/-! ## What no instruction does -/

/-- The flags are recomputed, never accumulated (10_state.md R29): what a flag-writing instruction
does, its four flags among it, does not depend on the flags before it. -/
def Obligations.FlagWritersIgnoreOldFlags : Prop :=
  ∀ (i : Instr) (s : State) (f : Flags), i.writesFlags = true → exec i (s.setFlags f) = exec i s

/-- An instruction that is no flag writer leaves every flag as it was (10_state.md R30, R32), whatever
it reports. -/
def Obligations.OtherInstructionsKeepFlags : Prop :=
  ∀ (i : Instr) (s t : State), exec i s = .next t → i.writesFlags = false → t.flags = s.flags

/-- The only general register an instruction can change is its destination (10_state.md R21). -/
def Obligations.OnlyDestinationRegisterChanges : Prop :=
  ∀ (i : Instr) (s t : State) (r : RegIdx), exec i s = .next t → t.getReg r ≠ s.getReg r →
    i.dest = some r

/-- Only PUSH and POP move sp, each by 2 and inside the window (10_state.md R34). The bounds are the
spec's decision D21 (log entry 16). -/
def Obligations.OnlyPushAndPopMoveSp : Prop :=
  ∀ (i : Instr) (s t : State), exec i s = .next t →
    t.sp = s.sp ∨
    ((∃ rn, i = .push rn) ∧ 0x8102 ≤ s.sp.toNat ∧ t.sp.toNat + 2 = s.sp.toNat) ∨
    ((∃ rd, i = .pop rd) ∧ s.sp.toNat ≤ 0x81FE ∧ t.sp.toNat = s.sp.toNat + 2)

/-- Nothing writes program memory (20_memory.md R51, R73): it is the same after every step. -/
def Obligations.ProgramMemoryNeverChanges : Prop :=
  ∀ (s t : State), step s = .next t → t.pm = s.pm

/-- A byte of memory can change in two ways only (20_memory.md R50, R67): it lies in the data memory
word a STR in range addresses (R55; that the whole address is compared is the spec's decision D27,
log entry 17), or in the stack word a PUSH with room writes (R63; where the window ends is its
decision D21, log entry 16). -/
def Obligations.OnlyStrAndPushWriteMemory : Prop :=
  ∀ (i : Instr) (s t : State) (sp : Space) (k : Nat),
    exec i s = .next t → t.byteAt sp k ≠ s.byteAt sp k →
    (sp = .dm ∧ ∃ rm, ((∃ imm, i = .strImm rm imm) ∨ ∃ rn, i = .strReg rm rn) ∧
      (s.getReg rm).toNat < 256 ∧ k / 2 = (s.getReg rm).toNat) ∨
    (sp = .stk ∧ (∃ rn, i = .push rn) ∧ 0x8102 ≤ s.sp.toNat ∧ k / 2 = stackIndex s.sp)

/-- A step appends at most one record (40_engine_cycle.md R118, 60_exceptions.md R251, R255, R262):
it carries the pc and ir of the word that raised it, is never InvalidRegister, and is PcBoundary
exactly when pc was outside program memory. The form of a record is the spec's decision D14 (log
entry 8). -/
def Obligations.StepReportsAtMostOnce : Prop :=
  ∀ (s t : State), step s = .next t →
    t.reports = s.reports ∨
    ∃ r, t.reports = s.reports ++ [r] ∧ r.cond ≠ .invalidRegister ∧ r.pc = s.pc ∧ r.ir = t.ir ∧
      (r.cond = .pcBoundary ↔ 0x0800 ≤ s.pc.toNat)

/-- Nothing reads the report stream or ir (10_state.md R28, R38): of two machines that differ in these
alone, every run differs in these alone. -/
def Obligations.ReportsAndIrNeverAffectExecution : Prop :=
  ∀ (n : Nat) (s t : State) (l : List Report) (w : Word), Sys2Proof.core.run n s = .next t →
    ∃ (l' : List Report) (w' : Word),
      Sys2Proof.core.run n { s with reports := l, ir := w } =
        .next { t with reports := l', ir := w' }

/-! ## The invariant -/

/-- Every step keeps the invariant: sp stays even and in its window (10_state.md R34; that the window
is closed at both ends is the spec's decision D21, log entry 16), the memories stay in canonical form
within their spaces, the odd stack entries stay unwritten (20_memory.md R60), a halted state shows
why it halted (10_state.md R36; 40_engine_cycle.md R111, R113; ir = 0xFFFF after a sentinel halt is
its decision D12, log entry 13), and only reachable conditions are reported (60_exceptions.md R255,
R260). -/
def Obligations.StepKeepsInvariant : Prop :=
  ∀ (s t : State), Inv s → step s = .next t → Inv t

/-- The invariant holds after reset (70_reset_and_hazards.md R281). That sp = 0x8200 then, which the
invariant's window rests on, is the spec's own choice (decision D4, log entry 3). -/
def Obligations.InvariantHoldsAtReset : Prop := Inv State.reset

/-! ## The boundary of the block -/

/-- The exit snapshot (10_state.md R40, its live stack entries the spec's decision D29, log entry
19): there is one exactly after Halted, and it shows the registers, flags, pc, ir, sp, the live
stack entries oldest first, data memory and the halt reason. -/
def Obligations.SnapshotShowsHaltedState : Prop :=
  (∀ s : State, s.run = .running → snapshot s = none) ∧
  ∀ (s : State) (r : HaltReason), StackPointerInWindow s → s.run = .halted r →
    ∃ x, snapshot s = some x ∧ x.regs = s.regs ∧ x.flags = s.flags ∧ x.pc = s.pc ∧ x.ir = s.ir ∧
      x.sp = s.sp ∧ x.reason = r ∧
      x.stack.length = (0x8200 - s.sp.toNat) / 2 ∧
      (∀ k < x.stack.length, x.stack[k]? = some (s.wordAt .stk ((0x8200 - 2 * k - 0x8100) % 256))) ∧
      x.data.length = 256 ∧ ∀ i < 256, x.data[i]? = some (s.wordAt .dm i)

/-- The ports account for a step (10_state.md R41, the spec's decision D2, log entry 20). Each port
shows an access exactly when the step makes it: program memory at every fetch, data memory for an
LDR or STR in range (20_memory.md R55, decision D27, log entry 17), the stack for a POP or PUSH that
is allowed (R63, decision D21, log entry 16). The memories after the step are those before it with
the writes of the ports done; a word read reaches ir (the sentinel too: decision D12, log entry 13),
or the decoded instruction's destination. The status is that of the state the step begins in, and the
record appended is the one reported (its form is decision D14, log entry 8). -/
def Obligations.PortsAccountForStep : Prop :=
  ∀ (s t : State), step s = .next t →
    let i := decodeWord (fetchWord s)
    let x := transaction s
    (∀ k w, x.pmRead = some (k, w) ↔
      Fetches s ∧ k.toNat = s.pc.toNat / 2 ∧ w = s.wordAt .pm (s.pc.toNat / 2)) ∧
    (∀ a v, x.dataPort = some (.read a v) ↔
      Fetches s ∧ v = s.wordAt .dm a.toNat ∧
        ∃ rd rm, i = .ldr rd rm ∧ a.toNat = (s.getReg rm).toNat) ∧
    (∀ a v, x.dataPort = some (.write a v) ↔
      Fetches s ∧ ∃ rm, a.toNat = (s.getReg rm).toNat ∧
        ((∃ imm, i = .strImm rm imm ∧ v = BitVec.ofNat 16 imm.toNat) ∨
          ∃ rn, i = .strReg rm rn ∧ v = s.getReg rn)) ∧
    (∀ a v, x.stackPort = some (.read a v) ↔
      Fetches s ∧ s.sp.toNat ≤ 0x81FE ∧ a.toNat = s.sp.toNat + 2 ∧ v = s.stackWord a ∧
        ∃ rd, i = .pop rd) ∧
    (∀ a v, x.stackPort = some (.write a v) ↔
      Fetches s ∧ 0x8102 ≤ s.sp.toNat ∧ a = s.sp ∧ ∃ rn, i = .push rn ∧ v = s.getReg rn) ∧
    t.pm = s.pm ∧ t.dm = (applyDataPort x.dataPort s).dm ∧
    t.stk = (applyStackPort x.stackPort s).stk ∧
    (∀ k w, x.pmRead = some (k, w) → t.ir = w) ∧
    (∀ a v, x.dataPort = some (.read a v) → ∃ rd, i.dest = some rd ∧ t.getReg rd = v) ∧
    (∀ a v, x.stackPort = some (.read a v) →
      t.sp = a ∧ ∃ rd, i.dest = some rd ∧ t.getReg rd = v) ∧
    (x.halted = true ↔ s.run ≠ .running) ∧ (∀ r, x.haltReason = some r ↔ s.run = .halted r) ∧
    (x.report = none → t.reports = s.reports) ∧
    ∀ c info, x.report = some (c, info) → t.reports = s.reports ++ [⟨c, s.pc, t.ir, info⟩]
end

