-- ==== Sys2Proof/Laws/Parameters.lean ====
section
/-! SUPPORT. The value of each parameter of this hardware, one lemma per field. -/

namespace Sys2Proof.Machine

@[simp] theorem hw_xlen : hw.xlen = 16 := rfl
@[simp] theorem hw_nreg : hw.nreg = 8 := rfl
@[simp] theorem hw_pmWords : hw.pmWords = 1024 := rfl
@[simp] theorem hw_dmWords : hw.dmWords = 256 := rfl
@[simp] theorem hw_stackBase : hw.stackBase = 0x8100 := rfl
@[simp] theorem hw_stackTop : hw.stackTop = 0x8200 := rfl
@[simp] theorem hw_stackSlots : hw.stackSlots = 256 := rfl
@[simp] theorem hw_stackStep : hw.stackStep = 2 := rfl
@[simp] theorem hw_pcStep : hw.pcStep = 2 := rfl
@[simp] theorem hw_haltWord : hw.haltWord = 0xFFFF#16 := rfl
@[simp] theorem hw_spReset : hw.spReset = 0x8200#16 := rfl
@[simp] theorem hw_pcReset : hw.pcReset = 0x0000#16 := rfl
@[simp] theorem hw_jltCond : hw.jltCond = .neg := rfl

end Sys2Proof.Machine
end

