-- ==== Sys2Proof/Laws/Memory.lean ====
section
/-! SUPPORT. The laws of the memories: a word is its two bytes, read after write, and every
operation keeps the canonical form. -/

namespace Sys2Proof

/-- A word put together from its two bytes. -/
@[simp] theorem wordOfBytes_low_high (v : Word) : wordOfBytes (lowByte v) (highByte v) = v := by
  unfold wordOfBytes lowByte highByte
  apply BitVec.eq_of_getLsbD_eq
  intro i hi
  rw [BitVec.getLsbD_append]
  by_cases h : i < 8
  · simp [h]
  · have h' : i - 8 < 8 := by omega
    have e : 8 + (i - 8) = i := by omega
    simp [h, h', e]

/-- The low byte of a word put together from two bytes. -/
@[simp] theorem lowByte_wordOfBytes (lo hi : Byte) : lowByte (wordOfBytes lo hi) = lo := by
  unfold wordOfBytes lowByte
  apply BitVec.eq_of_getLsbD_eq
  intro i h
  rw [BitVec.getLsbD_extractLsb', BitVec.getLsbD_append]
  simp [h]

/-- The high byte of a word put together from two bytes. -/
@[simp] theorem highByte_wordOfBytes (lo hi : Byte) : highByte (wordOfBytes lo hi) = hi := by
  unfold wordOfBytes highByte
  apply BitVec.eq_of_getLsbD_eq
  intro i h
  rw [BitVec.getLsbD_extractLsb', BitVec.getLsbD_append]
  simp [h]

end Sys2Proof

namespace Sys2Proof.Machine

/-! ## Read after write, for every list of bytes -/

theorem Memory.readByte_eraseByte_same (sp : Space) (m : Memory) (a : Nat) :
    Memory.readByte sp (Memory.eraseByte m a) a = sp.unlisted a := by
  induction m with
  | nil => rfl
  | cons c rest ih =>
    obtain ⟨b, u⟩ := c
    by_cases h : b = a <;> simp_all [Memory.eraseByte, Memory.readByte]

theorem Memory.readByte_eraseByte_other (sp : Space) (m : Memory) (a b : Nat) (h : b ≠ a) :
    Memory.readByte sp (Memory.eraseByte m a) b = Memory.readByte sp m b := by
  induction m with
  | nil => rfl
  | cons c rest ih =>
    obtain ⟨d, u⟩ := c
    by_cases hd : d = a
    · subst hd
      simpa [Memory.eraseByte, Memory.readByte, Ne.symm h] using ih
    · by_cases hb : d = b <;> simp_all [Memory.eraseByte, Memory.readByte]

theorem Memory.readByte_insertByte_same (sp : Space) (m : Memory) (a : Nat) (v : Byte) :
    (∀ c ∈ m, c.1 ≠ a) → Memory.readByte sp (Memory.insertByte m a v) a = v := by
  induction m with
  | nil => simp [Memory.insertByte, Memory.readByte]
  | cons c rest ih =>
    obtain ⟨b, u⟩ := c
    intro hm
    have hb : b ≠ a := hm (b, u) (by simp)
    have hr := ih fun c hc => hm c (by simp [hc])
    by_cases h : b < a <;> simp [Memory.insertByte, Memory.readByte, h, hb, hr]

theorem Memory.readByte_insertByte_other (sp : Space) (m : Memory) (a b : Nat) (v : Byte)
    (h : b ≠ a) : Memory.readByte sp (Memory.insertByte m a v) b = Memory.readByte sp m b := by
  induction m with
  | nil => simp [Memory.insertByte, Memory.readByte, Ne.symm h]
  | cons c rest ih =>
    obtain ⟨d, u⟩ := c
    have ha : a ≠ b := Ne.symm h
    by_cases hd : d < a
    · simp only [Memory.insertByte, hd, if_true, Memory.readByte, ih]
    · simp [Memory.insertByte, Memory.readByte, hd, ha]

theorem Memory.mem_eraseByte (m : Memory) (a : Nat) (c : Host.Cell) :
    c ∈ Memory.eraseByte m a ↔ c ∈ m ∧ c.1 ≠ a := by
  simp [Memory.eraseByte]

theorem Memory.mem_insertByte (m : Memory) (a : Nat) (v : Byte) (c : Host.Cell) :
    c ∈ Memory.insertByte m a v ↔ c = (a, v) ∨ c ∈ m := by
  induction m with
  | nil => simp [Memory.insertByte]
  | cons d rest ih =>
    obtain ⟨b, u⟩ := d
    by_cases h : b < a
    · simp only [Memory.insertByte, h, if_true, List.mem_cons, ih]
      tauto
    · simp [Memory.insertByte, h]

/-- A byte just written reads back. -/
@[simp] theorem Memory.readByte_writeByte_same (sp : Space) (m : Memory) (a : Nat) (v : Byte) :
    Memory.readByte sp (Memory.writeByte sp m a v) a = v := by
  unfold Memory.writeByte
  split
  · rename_i h
    rw [Memory.readByte_eraseByte_same, h]
  · exact Memory.readByte_insertByte_same _ _ _ _ fun c hc => ((Memory.mem_eraseByte m a c).1 hc).2

/-- Writing a byte leaves every other byte alone. -/
theorem Memory.readByte_writeByte_other (sp : Space) (m : Memory) (a b : Nat) (v : Byte)
    (h : b ≠ a) : Memory.readByte sp (Memory.writeByte sp m a v) b = Memory.readByte sp m b := by
  unfold Memory.writeByte
  split
  · exact Memory.readByte_eraseByte_other _ _ _ _ h
  · rw [Memory.readByte_insertByte_other _ _ _ _ _ h, Memory.readByte_eraseByte_other _ _ _ _ h]

/-- Writing a word leaves every byte outside it alone. -/
theorem Memory.readByte_writeWord_other (sp : Space) (m : Memory) (i a : Nat) (v : Word)
    (h : ¬(a = 2 * i ∨ a = 2 * i + 1)) :
    Memory.readByte sp (Memory.writeWord sp m i v) a = Memory.readByte sp m a := by
  rw [Memory.writeWord, Memory.readByte_writeByte_other _ _ _ _ _ (by omega),
    Memory.readByte_writeByte_other _ _ _ _ _ (by omega)]

/-- A word just written reads back (20_memory.md R57, R64). -/
@[simp] theorem Memory.readWord_writeWord_same (sp : Space) (m : Memory) (i : Nat) (v : Word) :
    Memory.readWord sp (Memory.writeWord sp m i v) i = v := by
  simp [Memory.readWord, Memory.writeWord, Memory.readByte_writeByte_other]

/-- Writing a word leaves every other word alone (20_memory.md R57, R64). -/
theorem Memory.readWord_writeWord_other (sp : Space) (m : Memory) (i j : Nat) (v : Word)
    (h : j ≠ i) :
    Memory.readWord sp (Memory.writeWord sp m i v) j = Memory.readWord sp m j := by
  rw [Memory.readWord, Memory.readByte_writeWord_other _ _ _ _ _ (by omega),
    Memory.readByte_writeWord_other _ _ _ _ _ (by omega), Memory.readWord]

/-! ## The canonical form -/

theorem Memory.wf_nil (sp : Space) : Memory.wf sp [] := by simp [Memory.wf]

theorem Memory.wf_eraseByte (sp : Space) (m : Memory) (a : Nat) (h : Memory.wf sp m) :
    Memory.wf sp (Memory.eraseByte m a) :=
  ⟨h.1.filter _, fun c hc => h.2 c ((Memory.mem_eraseByte m a c).1 hc).1⟩

theorem Memory.rising_insertByte (m : Memory) (a : Nat) (v : Byte)
    (h : m.Pairwise fun c d => c.1 < d.1) (ha : ∀ c ∈ m, c.1 ≠ a) :
    (Memory.insertByte m a v).Pairwise fun c d => c.1 < d.1 := by
  induction m with
  | nil => simp [Memory.insertByte]
  | cons d rest ih =>
    obtain ⟨b, u⟩ := d
    obtain ⟨hb, hr⟩ := List.pairwise_cons.1 h
    have hba : b ≠ a := ha (b, u) (by simp)
    by_cases hlt : b < a
    · simp only [Memory.insertByte, hlt, if_true, List.pairwise_cons]
      refine ⟨fun c hc => ?_, ih hr fun c hc => ha c (by simp [hc])⟩
      rcases (Memory.mem_insertByte rest a v c).1 hc with rfl | hc
      · exact hlt
      · exact hb c hc
    · simp only [Memory.insertByte, hlt, if_false, List.pairwise_cons]
      refine ⟨fun c hc => ?_, hb, hr⟩
      rcases List.mem_cons.1 hc with rfl | hc
      · change a < b
        omega
      · have := hb c hc
        simp only at this ⊢
        omega

/-- Setting a byte of the space keeps the canonical form. -/
theorem Memory.wf_writeByte (sp : Space) (m : Memory) (a : Nat) (v : Byte)
    (h : Memory.wf sp m) (ha : a < 2 * sp.words) : Memory.wf sp (Memory.writeByte sp m a v) := by
  unfold Memory.writeByte
  have he := Memory.wf_eraseByte sp m a h
  split
  · exact he
  · rename_i hv
    refine ⟨Memory.rising_insertByte _ _ _ he.1
      fun c hc => ((Memory.mem_eraseByte m a c).1 hc).2, fun c hc => ?_⟩
    rcases (Memory.mem_insertByte _ a v c).1 hc with rfl | hc
    · exact ⟨ha, hv⟩
    · exact he.2 c hc

/-- Setting a word of the space keeps the canonical form. -/
theorem Memory.wf_writeWord (sp : Space) (m : Memory) (i : Nat) (v : Word)
    (h : Memory.wf sp m) (hi : i < sp.words) : Memory.wf sp (Memory.writeWord sp m i v) :=
  Memory.wf_writeByte _ _ _ _ (Memory.wf_writeByte _ _ _ _ h (by omega)) (by omega)

/-! ## One form for one content -/

theorem Memory.readByte_of_not_listed (sp : Space) (m : Memory) (a : Nat)
    (h : ∀ c ∈ m, c.1 ≠ a) : Memory.readByte sp m a = sp.unlisted a := by
  induction m with
  | nil => rfl
  | cons c rest ih =>
    obtain ⟨b, u⟩ := c
    have hb : b ≠ a := h (b, u) (by simp)
    simp [Memory.readByte, hb, ih fun c hc => h c (by simp [hc])]

/-- An entry of a memory in canonical form is what its byte reads as. -/
theorem Memory.readByte_of_mem (sp : Space) (m : Memory)
    (hm : m.Pairwise fun c d => c.1 < d.1) (c : Host.Cell) (hc : c ∈ m) :
    Memory.readByte sp m c.1 = c.2 := by
  induction m with
  | nil => simp at hc
  | cons d rest ih =>
    obtain ⟨b, u⟩ := d
    obtain ⟨hb, hr⟩ := List.pairwise_cons.1 hm
    rcases List.mem_cons.1 hc with rfl | hc
    · simp [Memory.readByte]
    · have hlt : b < c.1 := hb c hc
      have hne : b ≠ c.1 := by omega
      simp [Memory.readByte, hne, ih hr hc]

/-- In canonical form the entries are the bytes that do not read as the fill. -/
theorem Memory.mem_iff (sp : Space) (m : Memory) (hm : Memory.wf sp m) (c : Host.Cell) :
    c ∈ m ↔ Memory.readByte sp m c.1 = c.2 ∧ c.2 ≠ sp.unlisted c.1 := by
  refine ⟨fun hc => ⟨Memory.readByte_of_mem sp m hm.1 c hc, (hm.2 c hc).2⟩, fun ⟨hr, hu⟩ => ?_⟩
  by_contra hc
  by_cases hl : ∀ d ∈ m, d.1 ≠ c.1
  · exact hu (hr ▸ Memory.readByte_of_not_listed sp m c.1 hl)
  · push Not at hl
    obtain ⟨d, hd, hdc⟩ := hl
    have hv := Memory.readByte_of_mem sp m hm.1 d hd
    rw [hdc, hr] at hv
    exact hc ((Prod.ext hdc hv.symm : d = c) ▸ hd)

/-- Two memories in canonical form that read the same are the same list. -/
theorem Memory.wf_ext (sp : Space) (m k : Memory) (hm : Memory.wf sp m) (hk : Memory.wf sp k)
    (h : ∀ a, Memory.readByte sp m a = Memory.readByte sp k a) : m = k := by
  have hmem : ∀ c, c ∈ m ↔ c ∈ k := fun c => by rw [Memory.mem_iff sp m hm, Memory.mem_iff sp k hk, h]
  refine List.Perm.eq_of_pairwise (le := fun c d => c.1 < d.1) (fun a b _ _ hab hba => ?_) hm.1 hk.1 ?_
  · omega
  · exact (List.perm_ext_iff_of_nodup (hm.1.imp fun hcd e => by subst e; omega)
      (hk.1.imp fun hcd e => by subst e; omega)).2 hmem

end Sys2Proof.Machine
end

