-- ==== Sys2Proof/Laws/State.lean ====
section
/-! SUPPORT. What each field of the state is after each update: one lemma per field per update, so
that no proof unfolds a record update. -/

namespace Sys2Proof.Machine

/-! ## `State.setReg` -/

@[simp] theorem State.setReg_regs (s : State) (r : RegIdx) (v : Word) : (s.setReg r v).regs = s.regs.set r v := rfl
@[simp] theorem State.setReg_pc (s : State) (r : RegIdx) (v : Word) : (s.setReg r v).pc = s.pc := rfl
@[simp] theorem State.setReg_ir (s : State) (r : RegIdx) (v : Word) : (s.setReg r v).ir = s.ir := rfl
@[simp] theorem State.setReg_flags (s : State) (r : RegIdx) (v : Word) : (s.setReg r v).flags = s.flags := rfl
@[simp] theorem State.setReg_sp (s : State) (r : RegIdx) (v : Word) : (s.setReg r v).sp = s.sp := rfl
@[simp] theorem State.setReg_pm (s : State) (r : RegIdx) (v : Word) : (s.setReg r v).pm = s.pm := rfl
@[simp] theorem State.setReg_dm (s : State) (r : RegIdx) (v : Word) : (s.setReg r v).dm = s.dm := rfl
@[simp] theorem State.setReg_stk (s : State) (r : RegIdx) (v : Word) : (s.setReg r v).stk = s.stk := rfl
@[simp] theorem State.setReg_run (s : State) (r : RegIdx) (v : Word) : (s.setReg r v).run = s.run := rfl
@[simp] theorem State.setReg_reports (s : State) (r : RegIdx) (v : Word) : (s.setReg r v).reports = s.reports := rfl
@[simp] theorem State.setReg_memory (s : State) (r : RegIdx) (v : Word) (sp : Space) :
    (s.setReg r v).memory sp = s.memory sp := by cases sp <;> rfl
@[simp] theorem State.setReg_byteAt (s : State) (r : RegIdx) (v : Word) (sp : Space) (a : Nat) :
    (s.setReg r v).byteAt sp a = s.byteAt sp a := by simp [State.byteAt]
@[simp] theorem State.setReg_wordAt (s : State) (r : RegIdx) (v : Word) (sp : Space) (i : Nat) :
    (s.setReg r v).wordAt sp i = s.wordAt sp i := by simp [State.wordAt]

/-! ## `State.setPc` -/

@[simp] theorem State.setPc_regs (s : State) (v : Word) : (s.setPc v).regs = s.regs := rfl
@[simp] theorem State.setPc_pc (s : State) (v : Word) : (s.setPc v).pc = v := rfl
@[simp] theorem State.setPc_ir (s : State) (v : Word) : (s.setPc v).ir = s.ir := rfl
@[simp] theorem State.setPc_flags (s : State) (v : Word) : (s.setPc v).flags = s.flags := rfl
@[simp] theorem State.setPc_sp (s : State) (v : Word) : (s.setPc v).sp = s.sp := rfl
@[simp] theorem State.setPc_pm (s : State) (v : Word) : (s.setPc v).pm = s.pm := rfl
@[simp] theorem State.setPc_dm (s : State) (v : Word) : (s.setPc v).dm = s.dm := rfl
@[simp] theorem State.setPc_stk (s : State) (v : Word) : (s.setPc v).stk = s.stk := rfl
@[simp] theorem State.setPc_run (s : State) (v : Word) : (s.setPc v).run = s.run := rfl
@[simp] theorem State.setPc_reports (s : State) (v : Word) : (s.setPc v).reports = s.reports := rfl
@[simp] theorem State.setPc_memory (s : State) (v : Word) (sp : Space) :
    (s.setPc v).memory sp = s.memory sp := by cases sp <;> rfl
@[simp] theorem State.setPc_byteAt (s : State) (v : Word) (sp : Space) (a : Nat) :
    (s.setPc v).byteAt sp a = s.byteAt sp a := by simp [State.byteAt]
@[simp] theorem State.setPc_wordAt (s : State) (v : Word) (sp : Space) (i : Nat) :
    (s.setPc v).wordAt sp i = s.wordAt sp i := by simp [State.wordAt]
@[simp] theorem State.setPc_getReg (s : State) (v : Word) (q : RegIdx) :
    (s.setPc v).getReg q = s.getReg q := rfl

/-! ## `State.setIr` -/

@[simp] theorem State.setIr_regs (s : State) (v : Word) : (s.setIr v).regs = s.regs := rfl
@[simp] theorem State.setIr_pc (s : State) (v : Word) : (s.setIr v).pc = s.pc := rfl
@[simp] theorem State.setIr_ir (s : State) (v : Word) : (s.setIr v).ir = v := rfl
@[simp] theorem State.setIr_flags (s : State) (v : Word) : (s.setIr v).flags = s.flags := rfl
@[simp] theorem State.setIr_sp (s : State) (v : Word) : (s.setIr v).sp = s.sp := rfl
@[simp] theorem State.setIr_pm (s : State) (v : Word) : (s.setIr v).pm = s.pm := rfl
@[simp] theorem State.setIr_dm (s : State) (v : Word) : (s.setIr v).dm = s.dm := rfl
@[simp] theorem State.setIr_stk (s : State) (v : Word) : (s.setIr v).stk = s.stk := rfl
@[simp] theorem State.setIr_run (s : State) (v : Word) : (s.setIr v).run = s.run := rfl
@[simp] theorem State.setIr_reports (s : State) (v : Word) : (s.setIr v).reports = s.reports := rfl
@[simp] theorem State.setIr_memory (s : State) (v : Word) (sp : Space) :
    (s.setIr v).memory sp = s.memory sp := by cases sp <;> rfl
@[simp] theorem State.setIr_byteAt (s : State) (v : Word) (sp : Space) (a : Nat) :
    (s.setIr v).byteAt sp a = s.byteAt sp a := by simp [State.byteAt]
@[simp] theorem State.setIr_wordAt (s : State) (v : Word) (sp : Space) (i : Nat) :
    (s.setIr v).wordAt sp i = s.wordAt sp i := by simp [State.wordAt]
@[simp] theorem State.setIr_getReg (s : State) (v : Word) (q : RegIdx) :
    (s.setIr v).getReg q = s.getReg q := rfl

/-! ## `State.setSp` -/

@[simp] theorem State.setSp_regs (s : State) (v : Word) : (s.setSp v).regs = s.regs := rfl
@[simp] theorem State.setSp_pc (s : State) (v : Word) : (s.setSp v).pc = s.pc := rfl
@[simp] theorem State.setSp_ir (s : State) (v : Word) : (s.setSp v).ir = s.ir := rfl
@[simp] theorem State.setSp_flags (s : State) (v : Word) : (s.setSp v).flags = s.flags := rfl
@[simp] theorem State.setSp_sp (s : State) (v : Word) : (s.setSp v).sp = v := rfl
@[simp] theorem State.setSp_pm (s : State) (v : Word) : (s.setSp v).pm = s.pm := rfl
@[simp] theorem State.setSp_dm (s : State) (v : Word) : (s.setSp v).dm = s.dm := rfl
@[simp] theorem State.setSp_stk (s : State) (v : Word) : (s.setSp v).stk = s.stk := rfl
@[simp] theorem State.setSp_run (s : State) (v : Word) : (s.setSp v).run = s.run := rfl
@[simp] theorem State.setSp_reports (s : State) (v : Word) : (s.setSp v).reports = s.reports := rfl
@[simp] theorem State.setSp_memory (s : State) (v : Word) (sp : Space) :
    (s.setSp v).memory sp = s.memory sp := by cases sp <;> rfl
@[simp] theorem State.setSp_byteAt (s : State) (v : Word) (sp : Space) (a : Nat) :
    (s.setSp v).byteAt sp a = s.byteAt sp a := by simp [State.byteAt]
@[simp] theorem State.setSp_wordAt (s : State) (v : Word) (sp : Space) (i : Nat) :
    (s.setSp v).wordAt sp i = s.wordAt sp i := by simp [State.wordAt]
@[simp] theorem State.setSp_getReg (s : State) (v : Word) (q : RegIdx) :
    (s.setSp v).getReg q = s.getReg q := rfl

/-! ## `State.setFlags` -/

@[simp] theorem State.setFlags_regs (s : State) (f : Flags) : (s.setFlags f).regs = s.regs := rfl
@[simp] theorem State.setFlags_pc (s : State) (f : Flags) : (s.setFlags f).pc = s.pc := rfl
@[simp] theorem State.setFlags_ir (s : State) (f : Flags) : (s.setFlags f).ir = s.ir := rfl
@[simp] theorem State.setFlags_flags (s : State) (f : Flags) : (s.setFlags f).flags = f := rfl
@[simp] theorem State.setFlags_sp (s : State) (f : Flags) : (s.setFlags f).sp = s.sp := rfl
@[simp] theorem State.setFlags_pm (s : State) (f : Flags) : (s.setFlags f).pm = s.pm := rfl
@[simp] theorem State.setFlags_dm (s : State) (f : Flags) : (s.setFlags f).dm = s.dm := rfl
@[simp] theorem State.setFlags_stk (s : State) (f : Flags) : (s.setFlags f).stk = s.stk := rfl
@[simp] theorem State.setFlags_run (s : State) (f : Flags) : (s.setFlags f).run = s.run := rfl
@[simp] theorem State.setFlags_reports (s : State) (f : Flags) : (s.setFlags f).reports = s.reports := rfl
@[simp] theorem State.setFlags_memory (s : State) (f : Flags) (sp : Space) :
    (s.setFlags f).memory sp = s.memory sp := by cases sp <;> rfl
@[simp] theorem State.setFlags_byteAt (s : State) (f : Flags) (sp : Space) (a : Nat) :
    (s.setFlags f).byteAt sp a = s.byteAt sp a := by simp [State.byteAt]
@[simp] theorem State.setFlags_wordAt (s : State) (f : Flags) (sp : Space) (i : Nat) :
    (s.setFlags f).wordAt sp i = s.wordAt sp i := by simp [State.wordAt]
@[simp] theorem State.setFlags_getReg (s : State) (f : Flags) (q : RegIdx) :
    (s.setFlags f).getReg q = s.getReg q := rfl

/-! ## `State.setRun` -/

@[simp] theorem State.setRun_regs (s : State) (r : RunState) : (s.setRun r).regs = s.regs := rfl
@[simp] theorem State.setRun_pc (s : State) (r : RunState) : (s.setRun r).pc = s.pc := rfl
@[simp] theorem State.setRun_ir (s : State) (r : RunState) : (s.setRun r).ir = s.ir := rfl
@[simp] theorem State.setRun_flags (s : State) (r : RunState) : (s.setRun r).flags = s.flags := rfl
@[simp] theorem State.setRun_sp (s : State) (r : RunState) : (s.setRun r).sp = s.sp := rfl
@[simp] theorem State.setRun_pm (s : State) (r : RunState) : (s.setRun r).pm = s.pm := rfl
@[simp] theorem State.setRun_dm (s : State) (r : RunState) : (s.setRun r).dm = s.dm := rfl
@[simp] theorem State.setRun_stk (s : State) (r : RunState) : (s.setRun r).stk = s.stk := rfl
@[simp] theorem State.setRun_run (s : State) (r : RunState) : (s.setRun r).run = r := rfl
@[simp] theorem State.setRun_reports (s : State) (r : RunState) : (s.setRun r).reports = s.reports := rfl
@[simp] theorem State.setRun_memory (s : State) (r : RunState) (sp : Space) :
    (s.setRun r).memory sp = s.memory sp := by cases sp <;> rfl
@[simp] theorem State.setRun_byteAt (s : State) (r : RunState) (sp : Space) (a : Nat) :
    (s.setRun r).byteAt sp a = s.byteAt sp a := by simp [State.byteAt]
@[simp] theorem State.setRun_wordAt (s : State) (r : RunState) (sp : Space) (i : Nat) :
    (s.setRun r).wordAt sp i = s.wordAt sp i := by simp [State.wordAt]
@[simp] theorem State.setRun_getReg (s : State) (r : RunState) (q : RegIdx) :
    (s.setRun r).getReg q = s.getReg q := rfl

/-- A register just written holds what was written (00_scope.md R9). -/
@[simp] theorem State.setReg_getReg_same (s : State) (r : RegIdx) (v : Word) :
    (s.setReg r v).getReg r = v := by
  simp [State.setReg, State.getReg]

/-- Writing a register leaves every other register alone (10_state.md R20: no aliases). -/
theorem State.setReg_getReg_other (s : State) (r q : RegIdx) (v : Word) (h : q ≠ r) :
    (s.setReg r v).getReg q = s.getReg q := by
  have hv : (r : Nat) ≠ (q : Nat) := fun e => h (Fin.ext e.symm)
  simp [State.setReg, State.getReg, Vector.getElem_set_ne _ _ hv]

/-! ## `raise` -/

@[simp] theorem raise_regs (c : Condition) (info : Word) (s : State) : (raise c info s).regs = s.regs := rfl
@[simp] theorem raise_pc (c : Condition) (info : Word) (s : State) : (raise c info s).pc = s.pc := rfl
@[simp] theorem raise_ir (c : Condition) (info : Word) (s : State) : (raise c info s).ir = s.ir := rfl
@[simp] theorem raise_flags (c : Condition) (info : Word) (s : State) : (raise c info s).flags = s.flags := rfl
@[simp] theorem raise_sp (c : Condition) (info : Word) (s : State) : (raise c info s).sp = s.sp := rfl
@[simp] theorem raise_pm (c : Condition) (info : Word) (s : State) : (raise c info s).pm = s.pm := rfl
@[simp] theorem raise_dm (c : Condition) (info : Word) (s : State) : (raise c info s).dm = s.dm := rfl
@[simp] theorem raise_stk (c : Condition) (info : Word) (s : State) : (raise c info s).stk = s.stk := rfl
@[simp] theorem raise_run (c : Condition) (info : Word) (s : State) : (raise c info s).run = s.run := rfl
@[simp] theorem raise_reports (c : Condition) (info : Word) (s : State) :
    (raise c info s).reports = s.reports ++ [⟨c, s.pc, s.ir, info⟩] := rfl
@[simp] theorem raise_memory (c : Condition) (info : Word) (s : State) (sp : Space) :
    (raise c info s).memory sp = s.memory sp := by cases sp <;> rfl
@[simp] theorem raise_byteAt (c : Condition) (info : Word) (s : State) (sp : Space) (a : Nat) :
    (raise c info s).byteAt sp a = s.byteAt sp a := by simp [State.byteAt]
@[simp] theorem raise_wordAt (c : Condition) (info : Word) (s : State) (sp : Space) (i : Nat) :
    (raise c info s).wordAt sp i = s.wordAt sp i := by simp [State.wordAt]
@[simp] theorem raise_getReg (c : Condition) (info : Word) (s : State) (q : RegIdx) :
    (raise c info s).getReg q = s.getReg q := rfl

/-! ## `State.setWordAt` -/

@[simp] theorem State.setWordAt_regs (s : State) (sp : Space) (i : Nat) (v : Word) :
    (s.setWordAt sp i v).regs = s.regs := by cases sp <;> rfl
@[simp] theorem State.setWordAt_pc (s : State) (sp : Space) (i : Nat) (v : Word) :
    (s.setWordAt sp i v).pc = s.pc := by cases sp <;> rfl
@[simp] theorem State.setWordAt_ir (s : State) (sp : Space) (i : Nat) (v : Word) :
    (s.setWordAt sp i v).ir = s.ir := by cases sp <;> rfl
@[simp] theorem State.setWordAt_flags (s : State) (sp : Space) (i : Nat) (v : Word) :
    (s.setWordAt sp i v).flags = s.flags := by cases sp <;> rfl
@[simp] theorem State.setWordAt_sp (s : State) (sp : Space) (i : Nat) (v : Word) :
    (s.setWordAt sp i v).sp = s.sp := by cases sp <;> rfl
@[simp] theorem State.setWordAt_run (s : State) (sp : Space) (i : Nat) (v : Word) :
    (s.setWordAt sp i v).run = s.run := by cases sp <;> rfl
@[simp] theorem State.setWordAt_reports (s : State) (sp : Space) (i : Nat) (v : Word) :
    (s.setWordAt sp i v).reports = s.reports := by cases sp <;> rfl
@[simp] theorem State.setWordAt_pm_pm (s : State) (i : Nat) (v : Word) :
    (s.setWordAt .pm i v).pm = Memory.writeWord .pm s.pm i v := rfl
@[simp] theorem State.setWordAt_pm_dm (s : State) (i : Nat) (v : Word) : (s.setWordAt .pm i v).dm = s.dm := rfl
@[simp] theorem State.setWordAt_pm_stk (s : State) (i : Nat) (v : Word) : (s.setWordAt .pm i v).stk = s.stk := rfl
@[simp] theorem State.setWordAt_dm_pm (s : State) (i : Nat) (v : Word) : (s.setWordAt .dm i v).pm = s.pm := rfl
@[simp] theorem State.setWordAt_dm_dm (s : State) (i : Nat) (v : Word) :
    (s.setWordAt .dm i v).dm = Memory.writeWord .dm s.dm i v := rfl
@[simp] theorem State.setWordAt_dm_stk (s : State) (i : Nat) (v : Word) : (s.setWordAt .dm i v).stk = s.stk := rfl
@[simp] theorem State.setWordAt_stk_pm (s : State) (i : Nat) (v : Word) : (s.setWordAt .stk i v).pm = s.pm := rfl
@[simp] theorem State.setWordAt_stk_dm (s : State) (i : Nat) (v : Word) : (s.setWordAt .stk i v).dm = s.dm := rfl
@[simp] theorem State.setWordAt_stk_stk (s : State) (i : Nat) (v : Word) :
    (s.setWordAt .stk i v).stk = Memory.writeWord .stk s.stk i v := rfl
@[simp] theorem State.setWordAt_getReg (s : State) (sp : Space) (i : Nat) (v : Word) (q : RegIdx) :
    (s.setWordAt sp i v).getReg q = s.getReg q := by cases sp <;> rfl
@[simp] theorem State.setWordAt_memory_same (s : State) (sp : Space) (i : Nat) (v : Word) :
    (s.setWordAt sp i v).memory sp = Memory.writeWord sp (s.memory sp) i v := by cases sp <;> rfl
theorem State.setWordAt_memory_other (s : State) (sp sp' : Space) (i : Nat) (v : Word)
    (h : sp' ≠ sp) : (s.setWordAt sp i v).memory sp' = s.memory sp' := by
  cases sp <;> cases sp' <;> first | rfl | exact absurd rfl h

/-- A word just written reads back (20_memory.md R57, R64, R70). -/
@[simp] theorem State.setWordAt_wordAt_same (s : State) (sp : Space) (i : Nat) (v : Word) :
    (s.setWordAt sp i v).wordAt sp i = v := by
  simp [State.wordAt]

/-- Writing a word leaves every other word of every space alone (20_memory.md R50, R67). -/
theorem State.setWordAt_wordAt_other (s : State) (sp sp' : Space) (i j : Nat) (v : Word)
    (h : ¬(sp' = sp ∧ j = i)) : (s.setWordAt sp i v).wordAt sp' j = s.wordAt sp' j := by
  by_cases e : sp' = sp
  · subst e
    simp [State.wordAt, Memory.readWord_writeWord_other _ _ _ _ _ (fun hj => h ⟨rfl, hj⟩)]
  · simp [State.wordAt, State.setWordAt_memory_other _ _ _ _ _ e]

/-- Writing a word leaves every byte outside it alone (20_memory.md R67). -/
theorem State.setWordAt_byteAt_other (s : State) (sp sp' : Space) (i a : Nat) (v : Word)
    (h : ¬(sp' = sp ∧ (a = 2 * i ∨ a = 2 * i + 1))) :
    (s.setWordAt sp i v).byteAt sp' a = s.byteAt sp' a := by
  by_cases e : sp' = sp
  · subst e
    have h' : ¬(a = 2 * i ∨ a = 2 * i + 1) := fun ha => h ⟨rfl, ha⟩
    simp [State.byteAt, Memory.readByte_writeWord_other _ _ _ _ _ h']
  · simp [State.byteAt, State.setWordAt_memory_other _ _ _ _ _ e]

end Sys2Proof.Machine
end

