-- ==== Sys2Proof/Laws/Ops.lean ====
section
/-! SUPPORT. What each shared operation can do, said once: the later proofs cite these and do not
unfold the operation. -/

namespace Sys2Proof.Machine

/-! ## Integers mod 2^16 (00_scope.md R8) -/

theorem u16_natCast (n : Nat) : u16 (n : Int) = BitVec.ofNat 16 n := by
  simp [u16]

@[simp] theorem u16_add_cast (a b : Word) : u16 ((a.toNat + b.toNat : Nat) : Int) = a + b := by
  rw [u16_natCast, BitVec.ofNat_add, BitVec.ofNat_toNat, BitVec.ofNat_toNat, BitVec.setWidth_eq,
    BitVec.setWidth_eq]

@[simp] theorem u16_add (a b : Word) : u16 ((a.toNat : Int) + (b.toNat : Int)) = a + b := by
  rw [← Int.natCast_add, u16_add_cast]

@[simp] theorem u16_mul_cast (a b : Word) : u16 ((a.toNat * b.toNat : Nat) : Int) = a * b := by
  rw [u16_natCast, BitVec.ofNat_mul, BitVec.ofNat_toNat, BitVec.ofNat_toNat, BitVec.setWidth_eq,
    BitVec.setWidth_eq]

@[simp] theorem u16_sub (a b : Word) : u16 ((a.toNat : Int) - (b.toNat : Int)) = a - b := by
  apply BitVec.eq_of_toNat_eq
  have ha := a.isLt
  have hb := b.isLt
  rw [u16, BitVec.toNat_ofInt, BitVec.toNat_sub]
  omega

theorem u16_sub_two (a : Word) : u16 ((a.toNat : Int) - 2) = a - 2#16 := u16_sub a 2#16

theorem u16_add_two (a : Word) : u16 ((a.toNat : Int) + 2) = a + 2#16 := u16_add a 2#16

/-! ## Bounds checks -/

theorem dmInRange_iff (a : Word) : dmInRange a = true ↔ a.toNat < 256 := by
  rw [dmInRange, decide_eq_true_iff, hw_dmWords]

theorem pushAllowed_iff (sp : Word) : pushAllowed sp = true ↔ 0x8102 ≤ sp.toNat := by
  rw [pushAllowed, decide_eq_true_iff, hw_stackStep, hw_stackBase]

theorem popAllowed_iff (sp : Word) : popAllowed sp = true ↔ sp.toNat ≤ 0x81FE := by
  rw [popAllowed, decide_eq_true_iff, hw_stackStep, hw_stackTop]
  omega

theorem pcOutside_iff (pc : Word) : pcOutside pc = true ↔ 0x0800 ≤ pc.toNat := by
  rw [pcOutside, decide_eq_true_iff, pmIndex, hw_pmWords]
  omega

theorem stackIndex_lt (a : Word) : stackIndex a < 256 := by
  simp only [stackIndex, hw_stackBase, hw_stackSlots]
  omega

/-- From STACK_BASE up, the backing index is the distance from STACK_BASE mod 256
(20_memory.md R59). -/
theorem stackIndex_of_le (a : Word) (h : 0x8100 ≤ a.toNat) :
    stackIndex a = (a.toNat - 0x8100) % 256 := by
  simp only [stackIndex, hw_stackBase, hw_stackSlots]
  omega

/-! ## The operations -/

/-- All that PUSH's access can do (42_opcode0_stack_cmp.md R151). -/
theorem pushWord_cases (v : Word) (s : State) :
    (0x8102 ≤ s.sp.toNat ∧ pushWord v s = (s.setStackWord s.sp v).setSp (s.sp - 2#16)) ∨
    (s.sp.toNat < 0x8102 ∧ pushWord v s = raise .stackOverflow s.sp s) := by
  by_cases h : pushAllowed s.sp = true
  · refine .inl ⟨(pushAllowed_iff _).1 h, ?_⟩
    simp only [pushWord, h, if_true, hw_stackStep]
    rw [← u16_sub_two]
    rfl
  · refine .inr ⟨Nat.lt_of_not_le fun hle => h ((pushAllowed_iff _).2 hle), ?_⟩
    simp [pushWord, h]

/-- All that POP's access can do (42_opcode0_stack_cmp.md R152). -/
theorem popWord_cases (rd : RegIdx) (s : State) :
    (s.sp.toNat ≤ 0x81FE ∧
      popWord rd s = (s.setSp (s.sp + 2#16)).setReg rd (s.stackWord (s.sp + 2#16))) ∨
    (0x81FE < s.sp.toNat ∧ popWord rd s = raise .stackUnderflow s.sp s) := by
  by_cases h : popAllowed s.sp = true
  · refine .inl ⟨(popAllowed_iff _).1 h, ?_⟩
    simp only [popWord, h, if_true, hw_stackStep]
    rw [← u16_add_two]
    rfl
  · refine .inr ⟨Nat.lt_of_not_le fun hle => h ((popAllowed_iff _).2 hle), ?_⟩
    simp [popWord, h]

/-- All that STR's access can do (20_memory.md R55). -/
theorem storeData_cases (a v : Word) (s : State) :
    (a.toNat < 256 ∧ storeData a v s = s.setWordAt .dm a.toNat v) ∨
    (256 ≤ a.toNat ∧ storeData a v s = raise .dataAddressRange a s) := by
  by_cases h : dmInRange a = true
  · exact .inl ⟨(dmInRange_iff _).1 h, by simp [storeData, h]⟩
  · exact .inr ⟨Nat.le_of_not_lt fun hlt => h ((dmInRange_iff _).2 hlt), by simp [storeData, h]⟩

/-- All that LDR's access can do (20_memory.md R55). -/
theorem loadData_cases (rd : RegIdx) (a : Word) (s : State) :
    (a.toNat < 256 ∧ loadData rd a s = s.setReg rd (s.wordAt .dm a.toNat)) ∨
    (256 ≤ a.toNat ∧ loadData rd a s = raise .dataAddressRange a s) := by
  by_cases h : dmInRange a = true
  · exact .inl ⟨(dmInRange_iff _).1 h, by simp [loadData, h]⟩
  · exact .inr ⟨Nat.le_of_not_lt fun hlt => h ((dmInRange_iff _).2 hlt), by simp [loadData, h]⟩

/-- All that a branch can do (41_branch.md R131). -/
theorem branchIf_cases (taken : Bool) (disp : BitVec 9) (s : State) :
    (taken = true ∧ branchIf taken disp s = s.setPc (s.pc + dispOperand disp)) ∨
    (taken = false ∧ branchIf taken disp s = s) := by
  cases taken <;> simp [branchIf]

/-- The pc advance is taken exactly while Running (40_engine_cycle.md R113, R116). -/
theorem advancePc_cases (s : State) :
    (s.run = .running ∧ advancePc s = s.setPc (s.pc + 2#16)) ∨
    ((∃ r, s.run = .halted r) ∧ advancePc s = s) := by
  cases h : s.run <;> simp [advancePc, h]

/-- All that running one fetched word can do (40_engine_cycle.md R114 to R116). -/
theorem executeWord_next (w : Word) (s t : State) (h : executeWord w s = .next t) :
    ∃ u, exec (decodeWord w) (s.setIr w) = .next u ∧ t = advancePc u := by
  unfold executeWord at h
  cases e : exec (decodeWord w) (s.setIr w) with
  | next u =>
    rw [e] at h
    exact ⟨u, rfl, by injection h with h; exact h.symm⟩
  | fault f => exact nomatch f
  | refused r => simp [e] at h

/-- All that a step can do (40_engine_cycle.md R118): nothing from Halted, the boundary halt, or the
fetched word. -/
theorem step_cases (s t : State) (h : step s = .next t) :
    ((∃ r, s.run = .halted r) ∧ t = s) ∨
    (s.run = .running ∧ 0x0800 ≤ s.pc.toNat ∧ t = boundaryHalt s) ∨
    (s.run = .running ∧ s.pc.toNat < 0x0800 ∧
      ∃ u, exec (decodeWord (fetchWord s)) (s.setIr (fetchWord s)) = .next u ∧
        t = advancePc u) := by
  unfold step at h
  cases hr : s.run with
  | halted r =>
    simp only [hr] at h
    injection h with h
    exact .inl ⟨⟨r, rfl⟩, h.symm⟩
  | running =>
    simp only [hr] at h
    by_cases hp : pcOutside s.pc = true
    · rw [if_pos hp] at h
      injection h with h
      exact .inr (.inl ⟨rfl, (pcOutside_iff _).1 hp, h.symm⟩)
    · rw [if_neg hp] at h
      exact .inr (.inr ⟨rfl, Nat.lt_of_not_le fun hle => hp ((pcOutside_iff _).2 hle),
        executeWord_next _ _ _ h⟩)

/-! ## Fields after the operations that do not branch -/

@[simp] theorem writeAlu_pc (rd : RegIdx) (o : AluOut) (s : State) : (writeAlu rd o s).pc = s.pc := rfl
@[simp] theorem writeAlu_ir (rd : RegIdx) (o : AluOut) (s : State) : (writeAlu rd o s).ir = s.ir := rfl
@[simp] theorem writeAlu_flags (rd : RegIdx) (o : AluOut) (s : State) :
    (writeAlu rd o s).flags = o.flags := rfl
@[simp] theorem writeAlu_sp (rd : RegIdx) (o : AluOut) (s : State) : (writeAlu rd o s).sp = s.sp := rfl
@[simp] theorem writeAlu_pm (rd : RegIdx) (o : AluOut) (s : State) : (writeAlu rd o s).pm = s.pm := rfl
@[simp] theorem writeAlu_dm (rd : RegIdx) (o : AluOut) (s : State) : (writeAlu rd o s).dm = s.dm := rfl
@[simp] theorem writeAlu_stk (rd : RegIdx) (o : AluOut) (s : State) :
    (writeAlu rd o s).stk = s.stk := rfl
@[simp] theorem writeAlu_run (rd : RegIdx) (o : AluOut) (s : State) :
    (writeAlu rd o s).run = s.run := rfl
@[simp] theorem writeAlu_reports (rd : RegIdx) (o : AluOut) (s : State) :
    (writeAlu rd o s).reports = s.reports := rfl
@[simp] theorem writeAlu_byteAt (rd : RegIdx) (o : AluOut) (s : State) (sp : Space) (a : Nat) :
    (writeAlu rd o s).byteAt sp a = s.byteAt sp a := by simp [writeAlu]
@[simp] theorem writeAlu_getReg_same (rd : RegIdx) (o : AluOut) (s : State) :
    (writeAlu rd o s).getReg rd = o.result := by simp [writeAlu]
theorem writeAlu_getReg_other (rd q : RegIdx) (o : AluOut) (s : State) (h : q ≠ rd) :
    (writeAlu rd o s).getReg q = s.getReg q := by
  simp [writeAlu, State.setReg_getReg_other _ _ _ _ h]

end Sys2Proof.Machine
end

