-- ==== Sys2Proof/Laws/Frames.lean ====
section
/-! SUPPORT. The frame of each shared operation, field by field: what it never changes. -/

namespace Sys2Proof.Machine

/-! ## `branchIf` -/

@[simp] theorem branchIf_regs (taken : Bool) (disp : BitVec 9) (s : State) : (branchIf taken disp s).regs = s.regs := by
  rcases branchIf_cases taken disp s with ⟨_, h⟩ | ⟨_, h⟩ <;> simp [h]
@[simp] theorem branchIf_ir (taken : Bool) (disp : BitVec 9) (s : State) : (branchIf taken disp s).ir = s.ir := by
  rcases branchIf_cases taken disp s with ⟨_, h⟩ | ⟨_, h⟩ <;> simp [h]
@[simp] theorem branchIf_flags (taken : Bool) (disp : BitVec 9) (s : State) : (branchIf taken disp s).flags = s.flags := by
  rcases branchIf_cases taken disp s with ⟨_, h⟩ | ⟨_, h⟩ <;> simp [h]
@[simp] theorem branchIf_sp (taken : Bool) (disp : BitVec 9) (s : State) : (branchIf taken disp s).sp = s.sp := by
  rcases branchIf_cases taken disp s with ⟨_, h⟩ | ⟨_, h⟩ <;> simp [h]
@[simp] theorem branchIf_pm (taken : Bool) (disp : BitVec 9) (s : State) : (branchIf taken disp s).pm = s.pm := by
  rcases branchIf_cases taken disp s with ⟨_, h⟩ | ⟨_, h⟩ <;> simp [h]
@[simp] theorem branchIf_dm (taken : Bool) (disp : BitVec 9) (s : State) : (branchIf taken disp s).dm = s.dm := by
  rcases branchIf_cases taken disp s with ⟨_, h⟩ | ⟨_, h⟩ <;> simp [h]
@[simp] theorem branchIf_stk (taken : Bool) (disp : BitVec 9) (s : State) : (branchIf taken disp s).stk = s.stk := by
  rcases branchIf_cases taken disp s with ⟨_, h⟩ | ⟨_, h⟩ <;> simp [h]
@[simp] theorem branchIf_run (taken : Bool) (disp : BitVec 9) (s : State) : (branchIf taken disp s).run = s.run := by
  rcases branchIf_cases taken disp s with ⟨_, h⟩ | ⟨_, h⟩ <;> simp [h]
@[simp] theorem branchIf_reports (taken : Bool) (disp : BitVec 9) (s : State) : (branchIf taken disp s).reports = s.reports := by
  rcases branchIf_cases taken disp s with ⟨_, h⟩ | ⟨_, h⟩ <;> simp [h]
@[simp] theorem branchIf_getReg (taken : Bool) (disp : BitVec 9) (s : State) (q : RegIdx) :
    (branchIf taken disp s).getReg q = s.getReg q := by
  rcases branchIf_cases taken disp s with ⟨_, h⟩ | ⟨_, h⟩ <;> simp [h]
@[simp] theorem branchIf_byteAt (taken : Bool) (disp : BitVec 9) (s : State) (sp : Space) (k : Nat) :
    (branchIf taken disp s).byteAt sp k = s.byteAt sp k := by
  rcases branchIf_cases taken disp s with ⟨_, h⟩ | ⟨_, h⟩ <;> simp [h]
@[simp] theorem branchIf_wordAt (taken : Bool) (disp : BitVec 9) (s : State) (sp : Space) (k : Nat) :
    (branchIf taken disp s).wordAt sp k = s.wordAt sp k := by
  rcases branchIf_cases taken disp s with ⟨_, h⟩ | ⟨_, h⟩ <;> simp [h]

/-! ## `storeData` -/

@[simp] theorem storeData_regs (a v : Word) (s : State) : (storeData a v s).regs = s.regs := by
  rcases storeData_cases a v s with ⟨_, h⟩ | ⟨_, h⟩ <;> simp [h]
@[simp] theorem storeData_pc (a v : Word) (s : State) : (storeData a v s).pc = s.pc := by
  rcases storeData_cases a v s with ⟨_, h⟩ | ⟨_, h⟩ <;> simp [h]
@[simp] theorem storeData_ir (a v : Word) (s : State) : (storeData a v s).ir = s.ir := by
  rcases storeData_cases a v s with ⟨_, h⟩ | ⟨_, h⟩ <;> simp [h]
@[simp] theorem storeData_flags (a v : Word) (s : State) : (storeData a v s).flags = s.flags := by
  rcases storeData_cases a v s with ⟨_, h⟩ | ⟨_, h⟩ <;> simp [h]
@[simp] theorem storeData_sp (a v : Word) (s : State) : (storeData a v s).sp = s.sp := by
  rcases storeData_cases a v s with ⟨_, h⟩ | ⟨_, h⟩ <;> simp [h]
@[simp] theorem storeData_pm (a v : Word) (s : State) : (storeData a v s).pm = s.pm := by
  rcases storeData_cases a v s with ⟨_, h⟩ | ⟨_, h⟩ <;> simp [h]
@[simp] theorem storeData_stk (a v : Word) (s : State) : (storeData a v s).stk = s.stk := by
  rcases storeData_cases a v s with ⟨_, h⟩ | ⟨_, h⟩ <;> simp [h]
@[simp] theorem storeData_run (a v : Word) (s : State) : (storeData a v s).run = s.run := by
  rcases storeData_cases a v s with ⟨_, h⟩ | ⟨_, h⟩ <;> simp [h]
@[simp] theorem storeData_getReg (a v : Word) (s : State) (q : RegIdx) :
    (storeData a v s).getReg q = s.getReg q := by
  rcases storeData_cases a v s with ⟨_, h⟩ | ⟨_, h⟩ <;> simp [h]

/-! ## `loadData` -/

@[simp] theorem loadData_pc (rd : RegIdx) (a : Word) (s : State) : (loadData rd a s).pc = s.pc := by
  rcases loadData_cases rd a s with ⟨_, h⟩ | ⟨_, h⟩ <;> simp [h]
@[simp] theorem loadData_ir (rd : RegIdx) (a : Word) (s : State) : (loadData rd a s).ir = s.ir := by
  rcases loadData_cases rd a s with ⟨_, h⟩ | ⟨_, h⟩ <;> simp [h]
@[simp] theorem loadData_flags (rd : RegIdx) (a : Word) (s : State) : (loadData rd a s).flags = s.flags := by
  rcases loadData_cases rd a s with ⟨_, h⟩ | ⟨_, h⟩ <;> simp [h]
@[simp] theorem loadData_sp (rd : RegIdx) (a : Word) (s : State) : (loadData rd a s).sp = s.sp := by
  rcases loadData_cases rd a s with ⟨_, h⟩ | ⟨_, h⟩ <;> simp [h]
@[simp] theorem loadData_pm (rd : RegIdx) (a : Word) (s : State) : (loadData rd a s).pm = s.pm := by
  rcases loadData_cases rd a s with ⟨_, h⟩ | ⟨_, h⟩ <;> simp [h]
@[simp] theorem loadData_dm (rd : RegIdx) (a : Word) (s : State) : (loadData rd a s).dm = s.dm := by
  rcases loadData_cases rd a s with ⟨_, h⟩ | ⟨_, h⟩ <;> simp [h]
@[simp] theorem loadData_stk (rd : RegIdx) (a : Word) (s : State) : (loadData rd a s).stk = s.stk := by
  rcases loadData_cases rd a s with ⟨_, h⟩ | ⟨_, h⟩ <;> simp [h]
@[simp] theorem loadData_run (rd : RegIdx) (a : Word) (s : State) : (loadData rd a s).run = s.run := by
  rcases loadData_cases rd a s with ⟨_, h⟩ | ⟨_, h⟩ <;> simp [h]
@[simp] theorem loadData_byteAt (rd : RegIdx) (a : Word) (s : State) (sp : Space) (k : Nat) :
    (loadData rd a s).byteAt sp k = s.byteAt sp k := by
  rcases loadData_cases rd a s with ⟨_, h⟩ | ⟨_, h⟩ <;> simp [h]
@[simp] theorem loadData_wordAt (rd : RegIdx) (a : Word) (s : State) (sp : Space) (k : Nat) :
    (loadData rd a s).wordAt sp k = s.wordAt sp k := by
  rcases loadData_cases rd a s with ⟨_, h⟩ | ⟨_, h⟩ <;> simp [h]

/-! ## `pushWord` -/

@[simp] theorem pushWord_regs (v : Word) (s : State) : (pushWord v s).regs = s.regs := by
  rcases pushWord_cases v s with ⟨_, h⟩ | ⟨_, h⟩ <;> simp [h, State.setStackWord]
@[simp] theorem pushWord_pc (v : Word) (s : State) : (pushWord v s).pc = s.pc := by
  rcases pushWord_cases v s with ⟨_, h⟩ | ⟨_, h⟩ <;> simp [h, State.setStackWord]
@[simp] theorem pushWord_ir (v : Word) (s : State) : (pushWord v s).ir = s.ir := by
  rcases pushWord_cases v s with ⟨_, h⟩ | ⟨_, h⟩ <;> simp [h, State.setStackWord]
@[simp] theorem pushWord_flags (v : Word) (s : State) : (pushWord v s).flags = s.flags := by
  rcases pushWord_cases v s with ⟨_, h⟩ | ⟨_, h⟩ <;> simp [h, State.setStackWord]
@[simp] theorem pushWord_pm (v : Word) (s : State) : (pushWord v s).pm = s.pm := by
  rcases pushWord_cases v s with ⟨_, h⟩ | ⟨_, h⟩ <;> simp [h, State.setStackWord]
@[simp] theorem pushWord_dm (v : Word) (s : State) : (pushWord v s).dm = s.dm := by
  rcases pushWord_cases v s with ⟨_, h⟩ | ⟨_, h⟩ <;> simp [h, State.setStackWord]
@[simp] theorem pushWord_run (v : Word) (s : State) : (pushWord v s).run = s.run := by
  rcases pushWord_cases v s with ⟨_, h⟩ | ⟨_, h⟩ <;> simp [h, State.setStackWord]
@[simp] theorem pushWord_getReg (v : Word) (s : State) (q : RegIdx) :
    (pushWord v s).getReg q = s.getReg q := by
  rcases pushWord_cases v s with ⟨_, h⟩ | ⟨_, h⟩ <;> simp [h, State.setStackWord]

/-! ## `popWord` -/

@[simp] theorem popWord_pc (rd : RegIdx) (s : State) : (popWord rd s).pc = s.pc := by
  rcases popWord_cases rd s with ⟨_, h⟩ | ⟨_, h⟩ <;> simp [h]
@[simp] theorem popWord_ir (rd : RegIdx) (s : State) : (popWord rd s).ir = s.ir := by
  rcases popWord_cases rd s with ⟨_, h⟩ | ⟨_, h⟩ <;> simp [h]
@[simp] theorem popWord_flags (rd : RegIdx) (s : State) : (popWord rd s).flags = s.flags := by
  rcases popWord_cases rd s with ⟨_, h⟩ | ⟨_, h⟩ <;> simp [h]
@[simp] theorem popWord_pm (rd : RegIdx) (s : State) : (popWord rd s).pm = s.pm := by
  rcases popWord_cases rd s with ⟨_, h⟩ | ⟨_, h⟩ <;> simp [h]
@[simp] theorem popWord_dm (rd : RegIdx) (s : State) : (popWord rd s).dm = s.dm := by
  rcases popWord_cases rd s with ⟨_, h⟩ | ⟨_, h⟩ <;> simp [h]
@[simp] theorem popWord_stk (rd : RegIdx) (s : State) : (popWord rd s).stk = s.stk := by
  rcases popWord_cases rd s with ⟨_, h⟩ | ⟨_, h⟩ <;> simp [h]
@[simp] theorem popWord_run (rd : RegIdx) (s : State) : (popWord rd s).run = s.run := by
  rcases popWord_cases rd s with ⟨_, h⟩ | ⟨_, h⟩ <;> simp [h]
@[simp] theorem popWord_byteAt (rd : RegIdx) (s : State) (sp : Space) (k : Nat) :
    (popWord rd s).byteAt sp k = s.byteAt sp k := by
  rcases popWord_cases rd s with ⟨_, h⟩ | ⟨_, h⟩ <;> simp [h]
@[simp] theorem popWord_wordAt (rd : RegIdx) (s : State) (sp : Space) (k : Nat) :
    (popWord rd s).wordAt sp k = s.wordAt sp k := by
  rcases popWord_cases rd s with ⟨_, h⟩ | ⟨_, h⟩ <;> simp [h]

/-! ## `sentinelHalt` -/

@[simp] theorem sentinelHalt_regs (s : State) : (sentinelHalt s).regs = s.regs := rfl
@[simp] theorem sentinelHalt_pc (s : State) : (sentinelHalt s).pc = s.pc := rfl
@[simp] theorem sentinelHalt_flags (s : State) : (sentinelHalt s).flags = s.flags := rfl
@[simp] theorem sentinelHalt_sp (s : State) : (sentinelHalt s).sp = s.sp := rfl
@[simp] theorem sentinelHalt_pm (s : State) : (sentinelHalt s).pm = s.pm := rfl
@[simp] theorem sentinelHalt_dm (s : State) : (sentinelHalt s).dm = s.dm := rfl
@[simp] theorem sentinelHalt_stk (s : State) : (sentinelHalt s).stk = s.stk := rfl
@[simp] theorem sentinelHalt_reports (s : State) : (sentinelHalt s).reports = s.reports := rfl
@[simp] theorem sentinelHalt_getReg (s : State) (q : RegIdx) :
    (sentinelHalt s).getReg q = s.getReg q := by simp [sentinelHalt]
@[simp] theorem sentinelHalt_byteAt (s : State) (sp : Space) (k : Nat) :
    (sentinelHalt s).byteAt sp k = s.byteAt sp k := by simp [sentinelHalt]
@[simp] theorem sentinelHalt_wordAt (s : State) (sp : Space) (k : Nat) :
    (sentinelHalt s).wordAt sp k = s.wordAt sp k := by simp [sentinelHalt]

/-! ## `boundaryHalt` -/

@[simp] theorem boundaryHalt_regs (s : State) : (boundaryHalt s).regs = s.regs := rfl
@[simp] theorem boundaryHalt_pc (s : State) : (boundaryHalt s).pc = s.pc := rfl
@[simp] theorem boundaryHalt_ir (s : State) : (boundaryHalt s).ir = s.ir := rfl
@[simp] theorem boundaryHalt_flags (s : State) : (boundaryHalt s).flags = s.flags := rfl
@[simp] theorem boundaryHalt_sp (s : State) : (boundaryHalt s).sp = s.sp := rfl
@[simp] theorem boundaryHalt_pm (s : State) : (boundaryHalt s).pm = s.pm := rfl
@[simp] theorem boundaryHalt_dm (s : State) : (boundaryHalt s).dm = s.dm := rfl
@[simp] theorem boundaryHalt_stk (s : State) : (boundaryHalt s).stk = s.stk := rfl
@[simp] theorem boundaryHalt_getReg (s : State) (q : RegIdx) :
    (boundaryHalt s).getReg q = s.getReg q := by simp [boundaryHalt]
@[simp] theorem boundaryHalt_byteAt (s : State) (sp : Space) (k : Nat) :
    (boundaryHalt s).byteAt sp k = s.byteAt sp k := by simp [boundaryHalt]
@[simp] theorem boundaryHalt_wordAt (s : State) (sp : Space) (k : Nat) :
    (boundaryHalt s).wordAt sp k = s.wordAt sp k := by simp [boundaryHalt]

/-! ## `advancePc` -/

@[simp] theorem advancePc_regs (s : State) : (advancePc s).regs = s.regs := by
  rcases advancePc_cases s with ⟨_, h⟩ | ⟨_, h⟩ <;> simp [h]
@[simp] theorem advancePc_ir (s : State) : (advancePc s).ir = s.ir := by
  rcases advancePc_cases s with ⟨_, h⟩ | ⟨_, h⟩ <;> simp [h]
@[simp] theorem advancePc_flags (s : State) : (advancePc s).flags = s.flags := by
  rcases advancePc_cases s with ⟨_, h⟩ | ⟨_, h⟩ <;> simp [h]
@[simp] theorem advancePc_sp (s : State) : (advancePc s).sp = s.sp := by
  rcases advancePc_cases s with ⟨_, h⟩ | ⟨_, h⟩ <;> simp [h]
@[simp] theorem advancePc_pm (s : State) : (advancePc s).pm = s.pm := by
  rcases advancePc_cases s with ⟨_, h⟩ | ⟨_, h⟩ <;> simp [h]
@[simp] theorem advancePc_dm (s : State) : (advancePc s).dm = s.dm := by
  rcases advancePc_cases s with ⟨_, h⟩ | ⟨_, h⟩ <;> simp [h]
@[simp] theorem advancePc_stk (s : State) : (advancePc s).stk = s.stk := by
  rcases advancePc_cases s with ⟨_, h⟩ | ⟨_, h⟩ <;> simp [h]
@[simp] theorem advancePc_run (s : State) : (advancePc s).run = s.run := by
  rcases advancePc_cases s with ⟨_, h⟩ | ⟨_, h⟩ <;> simp [h]
@[simp] theorem advancePc_reports (s : State) : (advancePc s).reports = s.reports := by
  rcases advancePc_cases s with ⟨_, h⟩ | ⟨_, h⟩ <;> simp [h]
@[simp] theorem advancePc_getReg (s : State) (q : RegIdx) :
    (advancePc s).getReg q = s.getReg q := by
  rcases advancePc_cases s with ⟨_, h⟩ | ⟨_, h⟩ <;> simp [h]
@[simp] theorem advancePc_byteAt (s : State) (sp : Space) (k : Nat) :
    (advancePc s).byteAt sp k = s.byteAt sp k := by
  rcases advancePc_cases s with ⟨_, h⟩ | ⟨_, h⟩ <;> simp [h]
@[simp] theorem advancePc_wordAt (s : State) (sp : Space) (k : Nat) :
    (advancePc s).wordAt sp k = s.wordAt sp k := by
  rcases advancePc_cases s with ⟨_, h⟩ | ⟨_, h⟩ <;> simp [h]

end Sys2Proof.Machine
end

