-- ==== Sys2Proof/Laws/Interface.lean ====
section
/-! SUPPORT. What a step and its ports are in each of the three cases of 40_engine_cycle.md R118: a
word is fetched, pc is outside program memory, the engine is Halted. -/

namespace Sys2Proof.Machine

/-- A step that fetches runs the fetched word (40_engine_cycle.md R112). -/
theorem step_of_fetches (s : State) (h : Fetches s) : step s = executeWord (fetchWord s) s := by
  have hp : ¬pcOutside s.pc = true := fun ho => Nat.not_le.2 h.2 ((pcOutside_iff _).1 ho)
  simp [step, h.1, hp]

/-- A step that fetches shows the fetch, and what its instruction accesses and reports. -/
theorem transaction_of_fetches (s : State) (h : Fetches s) :
    transaction s =
      { pmRead := some (BitVec.ofNat 10 (pmIndex s.pc), fetchWord s),
        dataPort := dataAccess (decodeWord (fetchWord s)) s,
        stackPort := stackAccess (decodeWord (fetchWord s)) s, halted := false,
        haltReason := none, report := conditionOf (decodeWord (fetchWord s)) s } := by
  have hp : ¬pcOutside s.pc = true := fun ho => Nat.not_le.2 h.2 ((pcOutside_iff _).1 ho)
  simp [transaction, h.1, hp]

/-- A boundary halt shows its report and no access. -/
theorem transaction_of_outside (s : State) (hr : s.run = .running) (hp : 0x0800 ≤ s.pc.toNat) :
    transaction s =
      { pmRead := none, dataPort := none, stackPort := none, halted := false,
        haltReason := none, report := some (.pcBoundary, s.pc) } := by
  simp [transaction, hr, (pcOutside_iff _).2 hp]

/-- A halted engine shows its status and no access. -/
theorem transaction_of_halted (s : State) (r : HaltReason) (hr : s.run = .halted r) :
    transaction s =
      { pmRead := none, dataPort := none, stackPort := none, halted := true,
        haltReason := some r, report := none } := by
  simp [transaction, hr]

end Sys2Proof.Machine
end

