-- ==== Sys2Proof/Laws/Load.lean ====
section
/-! SUPPORT. The laws of the load: an image is read back, and the loaded memories have their
canonical form, as the reset memories have. -/

namespace Sys2Proof.Machine

/-- A word that no entry of the image names keeps what it held. -/
theorem writeImage_other (sp : Space) (image : List (Nat × Word)) (m : Memory) (i : Nat)
    (h : ∀ e ∈ image, e.1 ≠ i) :
    Memory.readWord sp (writeImage sp image m) i = Memory.readWord sp m i := by
  induction image generalizing m with
  | nil => rfl
  | cons e rest ih =>
    obtain ⟨j, v⟩ := e
    rw [writeImage, ih _ fun d hd => h d (by simp [hd]),
      Memory.readWord_writeWord_other _ _ _ _ _ (Ne.symm (h (j, v) (by simp)))]

/-- A word that an image without repeated indices names holds that entry's value. -/
theorem writeImage_mem (sp : Space) (image : List (Nat × Word)) (m : Memory)
    (hn : (image.map fun e => e.1).Nodup) (e : Nat × Word) (he : e ∈ image) :
    Memory.readWord sp (writeImage sp image m) e.1 = e.2 := by
  induction image generalizing m with
  | nil => simp at he
  | cons d rest ih =>
    obtain ⟨j, v⟩ := d
    obtain ⟨hj, hr⟩ := List.nodup_cons.1 hn
    rw [writeImage]
    rcases List.mem_cons.1 he with rfl | he
    · rw [writeImage_other _ _ _ _ fun c hc hce => hj (List.mem_map.2 ⟨c, hc, hce⟩)]
      simp
    · exact ih _ hr he

/-- Loading an image that fits keeps the canonical form. -/
theorem wf_writeImage (sp : Space) (image : List (Nat × Word)) (m : Memory)
    (hm : Memory.wf sp m) (hi : imageFits sp.words image = true) :
    Memory.wf sp (writeImage sp image m) := by
  simp only [imageFits, Bool.and_eq_true, List.all_eq_true, decide_eq_true_iff] at hi
  have hb := hi.1
  clear hi
  induction image generalizing m with
  | nil => exact hm
  | cons e rest ih =>
    obtain ⟨j, v⟩ := e
    exact ih _ (Memory.wf_writeWord _ _ _ _ hm (hb (j, v) (by simp))) fun d hd => hb d (by simp [hd])

/-- After reset the three memories have their canonical form. -/
theorem reset_memories_wf (sp : Space) : Memory.wf sp (State.reset.memory sp) := by
  cases sp <;> exact Memory.wf_nil _

/-- After a load program memory and data memory have their canonical form; the stack store is the
one before it. -/
theorem load_memories_wf (program data : List (Nat × Word)) (s t : State)
    (h : s.load program data = some t) :
    Memory.wf .pm t.pm ∧ Memory.wf .dm t.dm ∧ t.stk = s.stk := by
  unfold State.load at h
  split at h
  · rename_i hf
    simp only [Bool.and_eq_true] at hf
    injection h with h
    subst h
    exact ⟨wf_writeImage .pm _ _ (Memory.wf_nil _) hf.1.2,
      wf_writeImage .dm _ _ (Memory.wf_nil _) hf.2, rfl⟩
  · cases h

end Sys2Proof.Machine
end

