-- ==== Sys2Proof/Laws/PerInstr.lean ====
section
/-! SUPPORT. A fact about every instruction, one lemma per constructor: its encoding lies in its row
of the opcode map (30_encoding.md R86, R89). -/

namespace Sys2Proof

/-- The word of a well-formed instruction matches the instruction's own row of R89. -/
def Laws.MatchBits.Statement (i : Instr) : Prop :=
  i.wf = true → encode i &&& i.mask = i.matchBits

/-- A row of format BR. -/
theorem Laws.encodeBR_row (d : BitVec 9) (c : BitVec 2) :
    encodeBR d c &&& 0xF803#16 = 0x0800#16 ||| c.zeroExtend 16 := by
  unfold encodeBR atBit
  apply BitVec.eq_of_getLsbD_eq
  intro i hi
  interval_cases i <;> simp

/-- A row of format R0. -/
theorem Laws.encodeR0_row (rd rm rn : RegIdx) (c : BitVec 2) :
    encodeR0 rd rm rn c &&& 0xF803#16 = c.zeroExtend 16 := by
  unfold encodeR0 atBit
  apply BitVec.eq_of_getLsbD_eq
  intro i hi
  interval_cases i <;> simp

/-- A row of format R, told apart by op and I. -/
theorem Laws.encodeR_row (op : BitVec 4) (rd rm rn : RegIdx) :
    encodeR op rd rm rn &&& 0xF800#16 = op.zeroExtend 16 <<< 12 := by
  unfold encodeR atBit
  apply BitVec.eq_of_getLsbD_eq
  intro i hi
  interval_cases i <;> simp

/-- A row of format R, told apart by op alone. -/
theorem Laws.encodeR_op (op : BitVec 4) (rd rm rn : RegIdx) :
    encodeR op rd rm rn &&& 0xF000#16 = op.zeroExtend 16 <<< 12 := by
  unfold encodeR atBit
  apply BitVec.eq_of_getLsbD_eq
  intro i hi
  interval_cases i <;> simp

theorem Laws.MatchBits.jmp (d : BitVec 9) : Laws.MatchBits.Statement (.jmp d) :=
  fun _ => (Laws.encodeBR_row d 0b00#2).trans rfl
theorem Laws.MatchBits.jeq (d : BitVec 9) : Laws.MatchBits.Statement (.jeq d) :=
  fun _ => (Laws.encodeBR_row d 0b01#2).trans rfl
theorem Laws.MatchBits.jlt (d : BitVec 9) : Laws.MatchBits.Statement (.jlt d) :=
  fun _ => (Laws.encodeBR_row d 0b10#2).trans rfl
theorem Laws.MatchBits.jgt (d : BitVec 9) : Laws.MatchBits.Statement (.jgt d) :=
  fun _ => (Laws.encodeBR_row d 0b11#2).trans rfl
theorem Laws.MatchBits.nop : Laws.MatchBits.Statement .nop :=
  fun _ => (Laws.encodeR0_row 0 0 0 0b00#2).trans rfl
theorem Laws.MatchBits.push (rn : RegIdx) : Laws.MatchBits.Statement (.push rn) :=
  fun _ => (Laws.encodeR0_row 0 0 rn 0b01#2).trans rfl
theorem Laws.MatchBits.pop (rd : RegIdx) : Laws.MatchBits.Statement (.pop rd) :=
  fun _ => (Laws.encodeR0_row rd 0 0 0b10#2).trans rfl
theorem Laws.MatchBits.cmp (rm rn : RegIdx) : Laws.MatchBits.Statement (.cmp rm rn) :=
  fun _ => (Laws.encodeR0_row 0 rm rn 0b11#2).trans rfl
theorem Laws.MatchBits.movImm (rd : RegIdx) (imm : Byte) :
    Laws.MatchBits.Statement (.movImm rd imm) := by
  intro _
  change encodeMI rd imm &&& 0xF800#16 = 0x1800#16
  unfold encodeMI atBit
  apply BitVec.eq_of_getLsbD_eq
  intro i hi
  interval_cases i <;> simp
theorem Laws.MatchBits.movReg (rd rm : RegIdx) : Laws.MatchBits.Statement (.movReg rd rm) :=
  fun _ => (Laws.encodeR_row 0x1#4 rd rm 0).trans rfl
theorem Laws.MatchBits.strImm (rm : RegIdx) (imm : Byte) :
    Laws.MatchBits.Statement (.strImm rm imm) := by
  intro _
  change encodeSI imm &&& 0xF800#16 = 0x2800#16
  unfold encodeSI atBit
  apply BitVec.eq_of_getLsbD_eq
  intro i hi
  interval_cases i <;> simp
theorem Laws.MatchBits.strReg (rm rn : RegIdx) : Laws.MatchBits.Statement (.strReg rm rn) :=
  fun _ => (Laws.encodeR_row 0x2#4 0 rm rn).trans rfl
theorem Laws.MatchBits.ldr (rd rm : RegIdx) : Laws.MatchBits.Statement (.ldr rd rm) :=
  fun _ => (Laws.encodeR_op 0x3#4 rd rm 0).trans rfl
theorem Laws.MatchBits.add (rd rm rn : RegIdx) : Laws.MatchBits.Statement (.add rd rm rn) :=
  fun _ => (Laws.encodeR_op 0x4#4 rd rm rn).trans rfl
theorem Laws.MatchBits.sub (rd rm rn : RegIdx) : Laws.MatchBits.Statement (.sub rd rm rn) :=
  fun _ => (Laws.encodeR_op 0x5#4 rd rm rn).trans rfl
theorem Laws.MatchBits.mul (rd rm rn : RegIdx) : Laws.MatchBits.Statement (.mul rd rm rn) :=
  fun _ => (Laws.encodeR_op 0x6#4 rd rm rn).trans rfl
theorem Laws.MatchBits.and (rd rm rn : RegIdx) : Laws.MatchBits.Statement (.and rd rm rn) :=
  fun _ => (Laws.encodeR_op 0x7#4 rd rm rn).trans rfl
theorem Laws.MatchBits.or (rd rm rn : RegIdx) : Laws.MatchBits.Statement (.or rd rm rn) :=
  fun _ => (Laws.encodeR_op 0x8#4 rd rm rn).trans rfl
theorem Laws.MatchBits.not (rd rm : RegIdx) : Laws.MatchBits.Statement (.not rd rm) :=
  fun _ => (Laws.encodeR_op 0x9#4 rd rm 0).trans rfl
theorem Laws.MatchBits.xor (rd rm rn : RegIdx) : Laws.MatchBits.Statement (.xor rd rm rn) :=
  fun _ => (Laws.encodeR_op 0xA#4 rd rm rn).trans rfl
theorem Laws.MatchBits.shr (rd rm : RegIdx) : Laws.MatchBits.Statement (.shr rd rm) :=
  fun _ => (Laws.encodeR_op 0xB#4 rd rm 0).trans rfl
theorem Laws.MatchBits.shl (rd rm : RegIdx) : Laws.MatchBits.Statement (.shl rd rm) :=
  fun _ => (Laws.encodeR_op 0xC#4 rd rm 0).trans rfl
theorem Laws.MatchBits.ror (rd rm : RegIdx) : Laws.MatchBits.Statement (.ror rd rm) :=
  fun _ => (Laws.encodeR_op 0xD#4 rd rm 0).trans rfl
theorem Laws.MatchBits.rol (rd rm : RegIdx) : Laws.MatchBits.Statement (.rol rd rm) :=
  fun _ => (Laws.encodeR_op 0xE#4 rd rm 0).trans rfl
theorem Laws.MatchBits.halt : Laws.MatchBits.Statement .halt := fun _ => by decide
theorem Laws.MatchBits.unimplemented (low : BitVec 12) :
    Laws.MatchBits.Statement (.unimplemented low) := by
  intro _
  change (0xF000#16 ||| atBit low 0) &&& 0xF000#16 = 0xF000#16
  unfold atBit
  apply BitVec.eq_of_getLsbD_eq
  intro i hi
  interval_cases i <;> simp

end Sys2Proof
end

