-- ==== Sys2Proof/Tests/Slice0.lean ====
section
/-! SUPPORT. Tests: the well-formedness smoke tests, a written-out word for every constructor, one
step of each instruction, and a state that meets the hypotheses of each statement. The words and the
expected values are those of 95_test_vectors.md (its vector is named in the docstring) or are worked
out by hand from the rule named. -/

namespace Sys2Proof.Tests

open Sys2Proof Sys2Proof.Machine

/-! ## Helpers -/

/-- The reset state with a pc, sp, flags and some registers of its own, and `word` where it fetches. -/
def testState (pc sp : Word) (f : Flags) (regs : List (RegIdx × Word)) (word : Word) : State :=
  let s := regs.foldl (fun s e => s.setReg e.1 e.2) State.reset
  (((s.setPc pc).setSp sp).setFlags f).setWordAt .pm (pmIndex pc) word

/-- All four flags set. -/
def allSet : Flags := ⟨true, true, true, true⟩

/-- All four flags clear, as after reset. -/
def allClear : Flags := ⟨false, false, false, false⟩

/-- The reset state with some registers and a word at pc = 0. -/
def fresh (regs : List (RegIdx × Word)) (word : Word) : State :=
  testState 0x0000#16 0x8200#16 allClear regs word

/-- The state after one step. -/
def after (s : State) : Option State :=
  match step s with
  | .next t => some t
  | .fault _ | .refused _ => none

/-- x[3] and the flags after one step of `word` with x[1] = a, x[2] = b and all flags set before
(95_test_vectors.md, 2.2). -/
def aluStep (word a b : Word) : Option (Word × Flags) :=
  (after (testState 0x0000#16 0x8200#16 allSet [(1, a), (2, b)] word)).map
    fun t => (t.getReg 3, t.flags)

/-- pc after one step of the branch `word` at 0x0020 with flags `f` (95_test_vectors.md, 2.3). -/
def branchStep (word : Word) (f : Flags) : Option Word :=
  (after (testState 0x0020#16 0x8200#16 f [] word)).map fun t => t.pc

/-! ## Well-formedness: each check refuses an ill-formed term -/

theorem test_strImm_register_mismatch_refused : (Instr.strImm 2 0x25#8).wf = false := by decide
theorem test_strImm_register_match_accepted : (Instr.strImm 1 0x25#8).wf = true := by decide
theorem test_unimplemented_sentinel_refused : (Instr.unimplemented 0xFFF#12).wf = false := by decide
theorem test_unimplemented_other_accepted : (Instr.unimplemented 0xFFE#12).wf = true := by decide

/-! ## Parameters: the widths of the types are the parameters' values (00_scope.md R6) -/

theorem test_widths_match_parameters :
    2 ^ hw.xlen = (BitVec.allOnes 16).toNat + 1 ∧ hw.nreg = State.reset.regs.toArray.size := by
  decide

/-! ## Decoding: one word written out bit by bit for every constructor (30_encoding.md R81, R87) -/

theorem test_decode_jmp : decodeWord 0b0000101111111100#16 = .jmp 0x0FF#9 := by decide
theorem test_decode_jeq : decodeWord 0b0000100000001001#16 = .jeq 0x002#9 := by decide
theorem test_decode_jlt : decodeWord 0b0000100000001010#16 = .jlt 0x002#9 := by decide
theorem test_decode_jgt : decodeWord 0b0000110000000011#16 = .jgt 0x100#9 := by decide
theorem test_decode_nop_ignored_bits : decodeWord 0b0000011111111100#16 = .nop := by decide
theorem test_decode_push : decodeWord 0b0000000000000101#16 = .push 1 := by decide
theorem test_decode_pop : decodeWord 0b0000001000000010#16 = .pop 2 := by decide
theorem test_decode_cmp : decodeWord 0b0000000000101011#16 = .cmp 1 2 := by decide
theorem test_decode_movImm : decodeWord 0b0001101000000011#16 = .movImm 2 0x03#8 := by decide
theorem test_decode_movReg : decodeWord 0b0001001010100011#16 = .movReg 2 5 := by decide
theorem test_decode_strImm : decodeWord 0b0010100000100101#16 = .strImm 1 0x25#8 := by decide
theorem test_decode_strReg : decodeWord 0b0010000000000100#16 = .strReg 0 1 := by decide
theorem test_decode_ldr_ignores_I : decodeWord 0b0011101000000000#16 = .ldr 2 0 := by decide
theorem test_decode_add_ignores_I_and_low2 : decodeWord 0b0100101100101001#16 = .add 3 1 2 := by decide
theorem test_decode_sub : decodeWord 0b0101001100101000#16 = .sub 3 1 2 := by decide
theorem test_decode_mul : decodeWord 0b0110001100101000#16 = .mul 3 1 2 := by decide
theorem test_decode_and : decodeWord 0b0111001100101000#16 = .and 3 1 2 := by decide
theorem test_decode_or : decodeWord 0b1000001100101000#16 = .or 3 1 2 := by decide
theorem test_decode_not : decodeWord 0b1001001100100000#16 = .not 3 1 := by decide
theorem test_decode_xor : decodeWord 0b1010001100101000#16 = .xor 3 1 2 := by decide
theorem test_decode_shr : decodeWord 0b1011001100100000#16 = .shr 3 1 := by decide
theorem test_decode_shl : decodeWord 0b1100010110100000#16 = .shl 5 5 := by decide
theorem test_decode_ror : decodeWord 0b1101001100100000#16 = .ror 3 1 := by decide
theorem test_decode_rol : decodeWord 0b1110001100100000#16 = .rol 3 1 := by decide
theorem test_decode_halt : decodeWord 0b1111111111111111#16 = .halt := by decide
theorem test_decode_unimplemented : decodeWord 0b1111011111111111#16 = .unimplemented 0x7FF#12 := by
  decide

/-- One byte is no instruction. -/
theorem test_decode_truncated : (match decode [0xFF#8] with
    | .error .truncated => true
    | .ok _ => false) = true := by decide

/-- The bytes of the words of 95_test_vectors.md, P1, low byte first. -/
theorem test_encode_words :
    [Instr.movImm 1 0x05#8, .movImm 2 0x03#8, .add 3 1 2, .sub 4 2 1, .jmp 0x1FE#9, .cmp 0 3,
      .jeq 0x006#9, .strReg 5 1, .strImm 7 0xE1#8, .push 2, .pop 4, .halt].map encode
      = [0x1905#16, 0x1A03#16, 0x4328#16, 0x5444#16, 0x0FF8#16, 0x000F#16, 0x0819#16, 0x20A4#16,
        0x28E1#16, 0x0009#16, 0x0402#16, 0xFFFF#16] ∧
    encodeBytes (.movImm 1 0x05#8) = [0x05#8, 0x19#8] := by decide

/-- A table word, and the same word as the first instruction after reset. -/
theorem test_table_word :
    decodeTableWord 16 0x1BFF = some (.movImm 3 0xFF#8) ∧
      (after (State.reset.withFetchWord 16 0x1BFF)).map (fun t => t.getReg 3) = some 0x00FF#16 := by
  decide

/-! ## One step of each instruction -/

/-- 2.3, the first line's branch (JMP +2) and B-5. -/
theorem test_jmp : branchStep 0x0808#16 allSet = some 0x0024#16 ∧
    (after (testState 0x0200#16 0x8200#16 allClear [] 0x0C00#16)).map (fun t => t.pc)
      = some 0x0102#16 := by decide
/-- B-7: pc wraps, and the next step is a boundary halt. -/
theorem test_jmp_wraps : ((after (fresh [] 0x0FF0#16)).bind after).map
    (fun u => (u.run, u.pc, u.ir, u.reports)) = some (.halted .boundary, 0xFFFE#16, 0x0FF0#16,
      [⟨.pcBoundary, 0xFFFE#16, 0x0FF0#16, 0xFFFE#16⟩]) := by decide
/-- 2.3: after CMP of equal values, and of 3 and 5. -/
theorem test_jeq : branchStep 0x0809#16 ⟨true, true, false, false⟩ = some 0x0024#16 ∧
    branchStep 0x0809#16 ⟨false, false, true, false⟩ = some 0x0022#16 := by decide
/-- 2.3: after CMP of 3 and 5, of 0x8000 and 1, and of equal values, under NEG; and under CARRY. -/
theorem test_jlt : branchStep 0x080A#16 ⟨false, false, true, false⟩ = some 0x0024#16 ∧
    branchStep 0x080A#16 ⟨false, true, false, true⟩ = some 0x0022#16 ∧
    branchStep 0x080A#16 ⟨true, true, false, false⟩ = some 0x0022#16 ∧
    jltTaken .carry ⟨false, true, false, true⟩ = true ∧
    jltTaken .carry ⟨false, false, true, false⟩ = false := by decide
/-- 2.3: after CMP of 3 and 5, of 5 and 3, and of equal values. -/
theorem test_jgt : branchStep 0x080B#16 ⟨false, false, true, false⟩ = some 0x0024#16 ∧
    branchStep 0x080B#16 ⟨false, true, false, false⟩ = some 0x0022#16 ∧
    branchStep 0x080B#16 ⟨true, true, false, false⟩ = some 0x0022#16 := by decide

/-- E-5. -/
theorem test_nop : (after (testState 0x0004#16 0x8200#16 allSet [] 0x0000#16)).map
    (fun t => (t.pc, t.ir, t.flags, t.reports)) = some (0x0006#16, 0x0000#16, allSet, []) := by decide
/-- S-1 and S-2: what PUSH stores, POP gives back. -/
theorem test_push_pop : (after (fresh [(1, 0x0007#16)] 0x0005#16)).map (fun t =>
    (t.wordAt .stk 0, t.sp, (after (t.setWordAt .pm 1 0x0202#16)).map fun u => (u.getReg 2, u.sp)))
      = some (0x0007#16, 0x81FE#16, some (0x0007#16, 0x8200#16)) := by decide
/-- S-5. -/
theorem test_push_overflow :
    (after (testState 0x0000#16 0x8100#16 allClear [(1, 0x0007#16)] 0x0005#16)).map
      (fun t => (t.stk, t.sp, t.reports, t.pc))
      = some ([], 0x8100#16, [⟨.stackOverflow, 0x0000#16, 0x0005#16, 0x8100#16⟩], 0x0002#16) := by
  decide
/-- S-6. -/
theorem test_pop_underflow : (after (fresh [(2, 0x1111#16)] 0x0202#16)).map
    (fun t => (t.getReg 2, t.sp, t.reports, t.pc))
      = some (0x1111#16, 0x8200#16, [⟨.stackUnderflow, 0x0000#16, 0x0202#16, 0x8200#16⟩],
        0x0002#16) := by decide
/-- 2.3: the flags of 0xFFFF against 0 and of 1 against 0x8000; no register changes. -/
theorem test_cmp : (after (fresh [(1, 0xFFFF#16)] 0x002B#16)).map (fun t => (t.flags, t.getReg 1))
      = some (⟨false, true, true, false⟩, 0xFFFF#16) ∧
    (after (fresh [(1, 0x0001#16), (2, 0x8000#16)] 0x002B#16)).map (fun t => t.flags)
      = some ⟨false, false, true, true⟩ := by decide

/-- M-1. -/
theorem test_movImm : (after (fresh [] 0x1BFF#16)).map (fun t => t.getReg 3) = some 0x00FF#16 := by
  decide
/-- M-2. -/
theorem test_movReg : (after (fresh [(0, 0x1234#16)] 0x1200#16)).map (fun t => t.getReg 2)
    = some 0x1234#16 := by decide
/-- M-3 and M-5. -/
theorem test_strImm : (after (fresh [(1, 0x0003#16)] 0x2825#16)).map (fun t => t.wordAt .dm 3)
      = some 0x0025#16 ∧
    (after (fresh [(7, 0x0010#16)] 0x28E1#16)).map (fun t => t.wordAt .dm 0x10) = some 0x00E1#16 := by
  decide
/-- M-7 (the last word) and M-8 (the first address outside). -/
theorem test_strReg : (after (fresh [(0, 0x00FF#16), (1, 0x00AB#16)] 0x2004#16)).map
      (fun t => t.wordAt .dm 0xFF) = some 0x00AB#16 ∧
    (after (fresh [(0, 0x0100#16), (1, 0x00AB#16)] 0x2004#16)).map (fun t => (t.dm, t.reports))
      = some ([], [⟨.dataAddressRange, 0x0000#16, 0x2004#16, 0x0100#16⟩]) := by decide
/-- M-11: the address register is the destination too. -/
theorem test_ldr : (after ((fresh [(1, 0x0010#16)] 0x3120#16).setWordAt .dm 0x10 0x00AB#16)).map
    (fun t => t.getReg 1) = some 0x00AB#16 := by decide
/-- M-12. -/
theorem test_ldr_out_of_range : (after (fresh [(0, 0xFFFF#16), (2, 0x5555#16)] 0x3200#16)).map
    (fun t => (t.getReg 2, t.reports))
      = some (0x5555#16, [⟨.dataAddressRange, 0x0000#16, 0x3200#16, 0xFFFF#16⟩]) := by decide

/-- 2.2, ADD: signed overflow with and without carry. -/
theorem test_add : aluStep 0x4328#16 0x7FFF#16 0x0001#16 = some (0x8000#16, ⟨false, false, true, true⟩) ∧
    aluStep 0x4328#16 0x8000#16 0xFFFF#16 = some (0x7FFF#16, ⟨false, true, false, true⟩) := by decide
/-- A-1: the destination is both operands, and V is from the old sign. -/
theorem test_add_aliased : (after (fresh [(1, 0x8000#16)] 0x4124#16)).map
    (fun t => (t.getReg 1, t.flags)) = some (0x0000#16, ⟨true, true, false, true⟩) := by decide
/-- 2.2, SUB: signed overflow both ways. -/
theorem test_sub : aluStep 0x5328#16 0x8000#16 0x0001#16 = some (0x7FFF#16, ⟨false, true, false, true⟩) ∧
    aluStep 0x5328#16 0x7FFF#16 0x8000#16 = some (0xFFFF#16, ⟨false, false, true, true⟩) := by decide
/-- 2.2, SUB: a borrow, and no borrow on equal operands. -/
theorem test_sub_carry : aluStep 0x5328#16 0x0003#16 0x0005#16 = some (0xFFFE#16, ⟨false, false, true, false⟩) ∧
    aluStep 0x5328#16 0x0005#16 0x0005#16 = some (0x0000#16, ⟨true, true, false, false⟩) := by decide
/-- 2.2, MUL: the product is unsigned. -/
theorem test_mul : aluStep 0x6328#16 0xFFFF#16 0x0002#16 = some (0xFFFE#16, ⟨false, true, true, true⟩) ∧
    aluStep 0x6328#16 0x00FF#16 0x00FF#16 = some (0xFE01#16, ⟨false, false, true, false⟩) := by decide
theorem test_and : aluStep 0x7328#16 0xF0F0#16 0x0FF0#16 = some (0x00F0#16, allClear) := by decide
theorem test_or : aluStep 0x8328#16 0x0001#16 0x8000#16
    = some (0x8001#16, ⟨false, false, true, false⟩) := by decide
theorem test_not : aluStep 0x9320#16 0x00FF#16 0x0000#16
    = some (0xFF00#16, ⟨false, false, true, false⟩) := by decide
theorem test_xor : aluStep 0xA328#16 0x1234#16 0x00FF#16 = some (0x12CB#16, allClear) := by decide
theorem test_shr : aluStep 0xB320#16 0xFFFF#16 0x0000#16
      = some (0x7FFF#16, ⟨false, true, false, false⟩) ∧
    aluStep 0xB320#16 0x8000#16 0x0000#16 = some (0x4000#16, allClear) := by decide
theorem test_shl : aluStep 0xC320#16 0x8000#16 0x0000#16
      = some (0x0000#16, ⟨true, true, false, false⟩) ∧
    aluStep 0xC320#16 0x4000#16 0x0000#16 = some (0x8000#16, ⟨false, false, true, false⟩) := by decide
theorem test_ror : aluStep 0xD320#16 0x0001#16 0x0000#16
      = some (0x8000#16, ⟨false, true, true, false⟩) ∧
    aluStep 0xD320#16 0x1234#16 0x0000#16 = some (0x091A#16, allClear) := by decide
theorem test_rol : aluStep 0xE320#16 0xC001#16 0x0000#16
      = some (0x8003#16, ⟨false, true, true, false⟩) ∧
    aluStep 0xE320#16 0x1234#16 0x0000#16 = some (0x2468#16, allClear) := by decide

/-- E-1 and B-6: the sentinel, at reset and at an odd pc. -/
theorem test_halt : (after State.reset).map (fun t => (t.run, t.pc, t.ir, t.reports))
      = some (.halted .sentinel, 0x0000#16, 0xFFFF#16, []) ∧
    (after (fresh [] 0x0804#16)).map (fun t => (t.pc, (after t).map fun u => (u.run, u.pc)))
      = some (0x0003#16, some (.halted .sentinel, 0x0003#16)) := by decide
/-- E-2. -/
theorem test_unimplemented : (after (testState 0x0010#16 0x8200#16 allSet [] 0xF000#16)).map
    (fun t => (t.pc, t.ir, t.flags, t.run, t.reports))
      = some (0x0012#16, 0xF000#16, allSet, .running,
        [⟨.unimplementedOpcode, 0x0010#16, 0xF000#16, 0xF000#16⟩]) := by decide
/-- E-4: the step at the last word, and the boundary halt after it. -/
theorem test_boundary :
    ((after (testState 0x07FE#16 0x8200#16 allClear [] 0x0000#16)).bind after).map
      (fun u => (u.run, u.pc, u.ir, u.reports)) = some (.halted .boundary, 0x0800#16, 0x0000#16,
        [⟨.pcBoundary, 0x0800#16, 0x0000#16, 0x0800#16⟩]) := by decide

/-! ## The block's boundary -/

/-- 10_state.md R42: Z is bit 3 and V bit 0. -/
theorem test_flags_pack : Flags.pack ⟨true, false, false, true⟩ = 0b1001#4 ∧
    Flags.pack ⟨false, true, false, false⟩ = 0b0100#4 := by decide
/-- 10_state.md R41: STR's port. -/
theorem test_transaction : (transaction (fresh [(0, 0x0010#16), (1, 0x00AB#16)] 0x2004#16)).dataPort
      = some (.write 0x10#8 0x00AB#16) ∧
    reportCode (transaction (fresh [] 0x0202#16)) = 4 := by decide
/-- P3's snapshot has no live entry; one PUSH leaves one. -/
theorem test_snapshot_stack :
    (snapshot (State.reset.setRun (.halted .sentinel))).map (fun x => x.stack) = some [] ∧
    ((after (fresh [(1, 0x0007#16)] 0x0005#16)).bind fun t =>
      snapshot (t.setRun (.halted .sentinel))).map (fun x => x.stack) = some [0x0007#16] := by decide
theorem test_firstSentinelIndex : firstSentinelIndex (fresh [] 0x0000#16) = some 1 := by
  decide +kernel
/-- 70_reset_and_hazards.md R284: an odd byte address and an index past the end start no run. -/
theorem test_load_refused : State.reset.load [(0x0001, 0x1905#16)] [] = none ∧
    State.reset.load [(0x0800, 0x1905#16)] [] = none ∧ State.reset.load [] [(256, 0#16)] = none := by
  decide

/-! ## Witnesses: a state and operands that meet the hypotheses of each statement -/

/-- An image of two program words and the last data word. -/
def smallProgram : List (Nat × Word) := [(0x0000, 0x1905#16), (0x07FE, 0x0FF8#16)]

/-- A word at the last data address. -/
def smallData : List (Nat × Word) := [(0x00FF, 0x00AB#16)]

/-- The load answers a state; index 0 is in the program image and index 1 is not, index 255 is in the
data image and index 0 is not. -/
theorem witness_LoadPlacesImageAndFillsRest :
    (∃ t, State.reset.load smallProgram smallData = some t) ∧ (0x0000, 0x1905#16) ∈ smallProgram ∧
      (∀ e ∈ smallProgram, e.1 / 2 ≠ 1) ∧ (0x00FF, 0x00AB#16) ∈ smallData ∧
      (∀ e ∈ smallData, e.1 ≠ 0) := ⟨⟨_, rfl⟩, by decide⟩

/-- At the ends of the operands' ranges. -/
theorem witness_DecodeOfEncodeIsInstruction : (Instr.jmp 0x100#9).wf = true ∧
    (Instr.jlt 0x0FF#9).wf = true ∧ (Instr.strImm 7 0xFF#8).wf = true ∧
    (Instr.unimplemented 0x000#12).wf = true ∧ (Instr.unimplemented 0xFFE#12).wf = true ∧
    Instr.halt.wf = true := by decide

theorem witness_IgnoredBitsDoNotMatter :
    0x07FC#16 &&& (decodeWord 0x0000#16).usedBits = 0x0000#16 &&& (decodeWord 0x0000#16).usedBits ∧
      0x07FC#16 ≠ 0x0000#16 := by decide

/-- Both ends of the range. -/
theorem witness_DisplacementIsSignedNineBits : ((-256 : Int) ≤ -256 ∧ (-256 : Int) ≤ 255) ∧
    ((-256 : Int) ≤ 255 ∧ (255 : Int) ≤ 255) := by decide

theorem witness_StepRunsDecodedInstruction :
    let s := testState 0x07FE#16 0x8200#16 allClear [] 0x4328#16
    s.run = .running ∧ s.pc.toNat < 0x0800 ∧
      decode [s.byteAt .pm (2 * (s.pc.toNat / 2)), s.byteAt .pm (2 * (s.pc.toNat / 2) + 1)]
        = .ok (.add 3 1 2, []) ∧ (Instr.add 3 1 2).wf = true := ⟨rfl, by decide, rfl, rfl⟩

theorem witness_HaltedStateIsFinal :
    (State.reset.setRun (.halted .sentinel)).run = .halted .sentinel := rfl

/-- The first address outside, and the last. -/
theorem witness_BoundaryHaltReportsAndStops :
    (State.reset.setPc 0x0800#16).run = .running ∧ 0x0800 ≤ (State.reset.setPc 0x0800#16).pc.toNat ∧
      0x0800 ≤ (State.reset.setPc 0xFFFF#16).pc.toNat := by decide

/-- The sentinel at the last address inside. -/
theorem witness_SentinelHaltStops :
    let s := testState 0x07FF#16 0x8200#16 allClear [] 0xFFFF#16
    s.run = .running ∧ s.pc.toNat < 0x0800 ∧ fetchWord s = 0xFFFF#16 := by decide

/-- A step that ends the run and one that does not. -/
theorem witness_OnlySentinelAndBoundaryEndRun :
    (∃ t, State.reset.run = .running ∧ step State.reset = .next t ∧ t.run = .halted .sentinel) ∧
      ∃ t, (fresh [] 0x0000#16).run = .running ∧ step (fresh [] 0x0000#16) = .next t ∧
        t.run = .running := ⟨⟨_, rfl, rfl, rfl⟩, ⟨_, rfl, rfl, rfl⟩⟩

/-- Both ends of the class. -/
theorem witness_UnimplementedWordIsReported :
    (let s := fresh [] 0xF000#16
     s.run = .running ∧ s.pc.toNat < 0x0800 ∧ fetchWord s &&& 0xF000#16 = 0xF000#16 ∧
      fetchWord s ≠ 0xFFFF#16) ∧
    let s := testState 0x07FE#16 0x8200#16 allClear [] 0xFFFE#16
    s.run = .running ∧ s.pc.toNat < 0x0800 ∧ fetchWord s &&& 0xF000#16 = 0xF000#16 ∧
      fetchWord s ≠ 0xFFFF#16 := by decide

theorem witness_ExecutedWordAdvancesPc :
    let s := testState 0x07FE#16 0x8200#16 allClear [] 0x0BFC#16
    s.run = .running ∧ s.pc.toNat < 0x0800 ∧ fetchWord s ≠ 0xFFFF#16 := by decide

theorem witness_JmpJeqJgtSetPc : 0x0FFC#16 &&& 0xF803#16 = 0x0800#16 ∧
    0x0FFD#16 &&& 0xF803#16 = 0x0801#16 ∧ 0x0FFF#16 &&& 0xF803#16 = 0x0803#16 := by decide

theorem witness_JumpToItselfNeverHalts :
    let s := testState 0x0004#16 0x8200#16 allClear [] 0x0FF8#16
    s.run = .running ∧ s.pc.toNat < 0x0800 ∧ fetchWord s = 0x0FF8#16 := by decide

theorem witness_NopChangesNothing : 0x07FC#16 &&& 0xF803#16 = 0x0000#16 ∧
    (let s := testState 0x07FE#16 0x8200#16 allSet [] 0x07FC#16
     s.run = .running ∧ s.pc.toNat < 0x0800 ∧ fetchWord s &&& 0xF803#16 = 0x0000#16) := by decide

/-- The last sp with a free word, and the first without one. -/
theorem witness_PushStoresThenMovesDown : 0x8102 ≤ (State.reset.setSp 0x8102#16).sp.toNat ∧
    (State.reset.setSp 0x8100#16).sp.toNat < 0x8102 := by decide

/-- The last sp with a live word above it, and the empty boundary. -/
theorem witness_PopMovesUpThenLoads : (State.reset.setSp 0x81FE#16).sp.toNat ≤ 0x81FE ∧
    0x81FE < (State.reset.setSp 0x8200#16).sp.toNat := by decide

/-- Both ends of the range. -/
theorem witness_PopAfterPushReturnsValue :
    (0x8102 ≤ (State.reset.setSp 0x8102#16).sp.toNat ∧ (State.reset.setSp 0x8102#16).sp.toNat ≤ 0x8200) ∧
      0x8102 ≤ State.reset.sp.toNat ∧ State.reset.sp.toNat ≤ 0x8200 := by decide

/-- A full stack, one with a free word, one with a live word, and the empty one. -/
theorem witness_StackUnitIsBoundedList :
    (StackPointerInWindow (State.reset.setSp 0x8100#16) ∧
      (State.reset.setSp 0x8100#16).liveStack.length = 128) ∧
    (StackPointerInWindow (State.reset.setSp 0x8102#16) ∧
      (State.reset.setSp 0x8102#16).liveStack.length < 128) ∧
    (StackPointerInWindow (State.reset.setSp 0x81FE#16) ∧
      (State.reset.setSp 0x81FE#16).liveStack = [] ++ [0x0000#16]) ∧
    StackPointerInWindow State.reset ∧ State.reset.liveStack = [] := by decide +kernel

theorem witness_CmpSetsFlagsOnly : 0x07FF#16 &&& 0xF803#16 = 0x0003#16 := by decide

theorem witness_MovWritesRegister : 0x1FFF#16 &&& 0xF800#16 = 0x1800#16 ∧
    0x17FF#16 &&& 0xF800#16 = 0x1000#16 := by decide

/-- The word, the last address inside, and the first outside. -/
theorem witness_StrImmWritesOneDataWord : 0x2FFF#16 &&& 0xF800#16 = 0x2800#16 ∧
    ((fresh [(1, 0x00FF#16)] 0x2825#16).getReg 1).toNat < 256 ∧
    256 ≤ ((fresh [(1, 0x0100#16)] 0x2825#16).getReg 1).toNat := by decide

/-- The word, the last address inside, and the first outside. -/
theorem witness_StrRegWritesOneDataWord : 0x27FF#16 &&& 0xF800#16 = 0x2000#16 ∧
    ((fresh [(0, 0x00FF#16)] 0x2004#16).getReg 0).toNat < 256 ∧
    256 ≤ ((fresh [(0, 0x0100#16)] 0x2004#16).getReg 0).toNat := by decide

/-- The word, the last address inside, and the first outside. -/
theorem witness_LdrReadsOneDataWord : 0x3FFF#16 &&& 0xF000#16 = 0x3000#16 ∧
    ((fresh [(0, 0x00FF#16)] 0x3200#16).getReg 0).toNat < 256 ∧
    256 ≤ ((fresh [(0, 0x0100#16)] 0x3200#16).getReg 0).toNat := by decide

/-- The same address in both registers, and two addresses. -/
theorem witness_LoadAfterStoreReturnsStoredWord :
    (let s := fresh [(0, 0x00FF#16), (2, 0x00FF#16)] 0x2004#16
     (s.getReg 0).toNat < 256 ∧ (s.getReg 2).toNat < 256 ∧ s.getReg 2 = s.getReg 0) ∧
    let s := fresh [(0, 0x00FF#16), (2, 0x0000#16)] 0x2004#16
    (s.getReg 0).toNat < 256 ∧ (s.getReg 2).toNat < 256 ∧ s.getReg 2 ≠ s.getReg 0 := by decide

theorem witness_LogicWritesResultClearsCarry : 0x7FFF#16 &&& 0xF000#16 = 0x7000#16 ∧
    0x8FFF#16 &&& 0xF000#16 = 0x8000#16 ∧ 0x9FFF#16 &&& 0xF000#16 = 0x9000#16 ∧
    0xAFFF#16 &&& 0xF000#16 = 0xA000#16 := by decide

theorem witness_ShiftsMoveByOneBit : 0xBFFF#16 &&& 0xF000#16 = 0xB000#16 ∧
    0xCFFF#16 &&& 0xF000#16 = 0xC000#16 ∧ 0xDFFF#16 &&& 0xF000#16 = 0xD000#16 ∧
    0xEFFF#16 &&& 0xF000#16 = 0xE000#16 := by decide

theorem witness_FlagWritersIgnoreOldFlags : (Instr.cmp 1 2).writesFlags = true := rfl

/-- A POP on an empty stack, which reports. -/
theorem witness_OtherInstructionsKeepFlags : ∃ t, exec (.pop 2) State.reset = .next t ∧
    (Instr.pop 2).writesFlags = false := ⟨_, rfl, rfl⟩

theorem witness_OnlyDestinationRegisterChanges :
    ∃ t, exec (.movImm 3 0xFF#8) State.reset = .next t ∧ t.getReg 3 ≠ State.reset.getReg 3 :=
  ⟨_, rfl, by decide⟩

/-- A PUSH and a POP that move sp. -/
theorem witness_OnlyPushAndPopMoveSp :
    (∃ t, exec (.push 1) State.reset = .next t ∧ t.sp ≠ State.reset.sp) ∧
      ∃ t, exec (.pop 1) (State.reset.setSp 0x81FE#16) = .next t ∧ t.sp ≠ 0x81FE#16 :=
  ⟨⟨_, rfl, by decide⟩, ⟨_, rfl, by decide⟩⟩

theorem witness_ProgramMemoryNeverChanges :
    ∃ t, step (fresh [(0, 0x0010#16), (1, 0x00AB#16)] 0x2004#16) = .next t := ⟨_, rfl⟩

/-- A byte of data memory that STR changes and one of the stack that PUSH changes. -/
theorem witness_OnlyStrAndPushWriteMemory :
    (∃ t, exec (.strImm 0 0x03#8) State.reset = .next t ∧
      t.byteAt .dm 0 ≠ State.reset.byteAt .dm 0) ∧
    ∃ t, exec (.push 1) (State.reset.setReg 1 0x0700#16) = .next t ∧
      t.byteAt .stk 1 ≠ State.reset.byteAt .stk 1 := ⟨⟨_, rfl, by decide⟩, ⟨_, rfl, by decide⟩⟩

/-- A step that reports. -/
theorem witness_StepReportsAtMostOnce : ∃ t, step (fresh [] 0x0202#16) = .next t ∧
    t.reports ≠ (fresh [] 0x0202#16).reports := ⟨_, rfl, by decide⟩

theorem witness_ReportsAndIrNeverAffectExecution :
    ∃ t, Sys2Proof.core.run 2 (fresh [] 0x0202#16) = .next t := ⟨_, rfl⟩

/-- A running state with a register, a data word and a stack word of its own, and its step. -/
theorem witness_StepKeepsInvariant :
    let s := ((fresh [(1, 0x00AB#16)] 0x0005#16).setWordAt .dm 255 0x1234#16).setSp 0x8102#16
    Inv s ∧ ∃ t, step s = .next t := ⟨by decide +kernel, _, rfl⟩

/-- Each way to halt, with a live stack entry. -/
theorem witness_SnapshotShowsHaltedState : State.reset.run = .running ∧
    (let s := (State.reset.setSp 0x81FE#16).setRun (.halted .sentinel)
     StackPointerInWindow s ∧ s.run = .halted .sentinel ∧ s.liveStack.length = 1) ∧
    let s := (State.reset.setSp 0x8100#16).setRun (.halted .boundary)
    StackPointerInWindow s ∧ s.run = .halted .boundary := by decide +kernel

/-- The premise, with a read and a write on each port at the last place inside (data word 255, the
POP that empties the stack, the PUSH that fills it), and a step that reports. -/
theorem witness_PortsAccountForStep :
    (∃ t, step (fresh [(0, 0x00FF#16)] 0x3200#16) = .next t ∧
      (transaction (fresh [(0, 0x00FF#16)] 0x3200#16)).dataPort = some (.read 0xFF#8 0x0000#16) ∧
      (transaction (fresh [(0, 0x00FF#16)] 0x3200#16)).pmRead = some (0#10, 0x3200#16) ∧
      (transaction (fresh [(0, 0x00FF#16)] 0x3200#16)).report = none) ∧
    (∃ t, step (fresh [(0, 0x00FF#16), (1, 0x00AB#16)] 0x2004#16) = .next t ∧
      (transaction (fresh [(0, 0x00FF#16), (1, 0x00AB#16)] 0x2004#16)).dataPort
        = some (.write 0xFF#8 0x00AB#16)) ∧
    (∃ t, step (testState 0x07FE#16 0x81FE#16 allClear [] 0x0202#16) = .next t ∧
      (transaction (testState 0x07FE#16 0x81FE#16 allClear [] 0x0202#16)).stackPort
        = some (.read 0x8200#16 0x0000#16)) ∧
    (∃ t, step (testState 0x0000#16 0x8102#16 allClear [(1, 0x0007#16)] 0x0005#16) = .next t ∧
      (transaction (testState 0x0000#16 0x8102#16 allClear [(1, 0x0007#16)] 0x0005#16)).stackPort
        = some (.write 0x8102#16 0x0007#16)) ∧
    ∃ t, step (fresh [] 0x0202#16) = .next t ∧
      (transaction (fresh [] 0x0202#16)).report = some (.stackUnderflow, 0x8200#16) :=
  ⟨⟨_, rfl, by decide, by decide, by decide⟩, ⟨_, rfl, by decide⟩, ⟨_, rfl, by decide⟩,
    ⟨_, rfl, by decide⟩, ⟨_, rfl, by decide⟩⟩

end Sys2Proof.Tests
end

section
/-! # What exec of an instruction can do, said once

`exec_effect` splits `exec` along its constructors; the facts about single fields after it, and the
proofs after those, go through its ten cases. -/

namespace Sys2Proof.Machine

/-! ## Rules of the operations -/

/-- A branch, taken or not, in one form: pc moves on by a displacement that is 0 if it is not taken
(41_branch.md R131). -/
theorem branchIf_eq_setPc (taken : Bool) (d : BitVec 9) (s : State) :
    branchIf taken d s = s.setPc (s.pc + BitVec.ofInt 16 (if taken then d.toInt else 0)) := by
  cases taken
  · simp [branchIf, State.setPc]
  · rfl

theorem loadData_getReg_other (rd q : RegIdx) (a : Word) (s : State) (h : q ≠ rd) :
    (loadData rd a s).getReg q = s.getReg q := by
  rcases loadData_cases rd a s with ⟨_, e⟩ | ⟨_, e⟩ <;> simp [e, State.setReg_getReg_other _ _ _ _ h]

theorem popWord_getReg_other (rd q : RegIdx) (s : State) (h : q ≠ rd) :
    (popWord rd s).getReg q = s.getReg q := by
  rcases popWord_cases rd s with ⟨_, e⟩ | ⟨_, e⟩ <;> simp [e, State.setReg_getReg_other _ _ _ _ h]

/-- An ALU write-back overwrites all four flags (10_state.md R29). -/
theorem writeAlu_setFlags (rd : RegIdx) (o : AluOut) (f : Flags) (s : State) :
    writeAlu rd o (s.setFlags f) = writeAlu rd o s := rfl

/-- The record of a condition that the word at pc raises (60_exceptions.md R251). -/
def State.recordOf (s : State) (c : Condition × Word) : Report := ⟨c.1, s.pc, s.ir, c.2⟩

/-! ## The cases of exec -/

/-- The instruction uses no memory port and reports nothing. -/
structure Quiet (i : Instr) (s : State) : Prop where
  data : dataAccess i s = none
  stack : stackAccess i s = none
  report : conditionOf i s = none

/-- An instruction with a destination is no branch. -/
theorem pcOffset_of_dest {i : Instr} {rd : RegIdx} (f : Flags) (h : i.dest = some rd) :
    i.pcOffset f = 0 := by
  cases i with
  | jmp | jeq | jlt | jgt => cases h
  | _ => rfl

/-- All that an instruction run in `s` can do: the shared operation it comes to, with what the ports
show of it. -/
inductive ExecEffect (s : State) : Instr → State → Prop
  /-- ADD to ROL but CMP: a result and its flags. -/
  | alu {i : Instr} {rd : RegIdx} (o : AluOut) (hf : i.writesFlags = true)
      (hd : i.dest = some rd) (hq : Quiet i s) : ExecEffect s i (writeAlu rd o s)
  /-- CMP: flags alone. -/
  | compare (rm rn : RegIdx) :
      ExecEffect s (.cmp rm rn) (s.setFlags (aluSub (s.getReg rm) (s.getReg rn)).flags)
  /-- MOV. -/
  | move {i : Instr} {rd : RegIdx} (v : Word) (hd : i.dest = some rd) (hq : Quiet i s) :
      ExecEffect s i (s.setReg rd v)
  /-- A branch, taken or not, and NOP. -/
  | branch {i : Instr} (hq : Quiet i s) :
      ExecEffect s i (s.setPc (s.pc + BitVec.ofInt 16 (i.pcOffset s.flags)))
  /-- STR of a register or of an immediate. -/
  | store {i : Instr} (a v : Word)
      (hdata : dataAccess i s = if dmInRange a then some (.write (a.setWidth 8) v) else none)
      (hstack : stackAccess i s = none)
      (hreport : conditionOf i s = if dmInRange a then none else some (.dataAddressRange, a))
      (hpc : i.pcOffset s.flags = 0) : ExecEffect s i (storeData a v s)
  /-- LDR. -/
  | load (rd rm : RegIdx) : ExecEffect s (.ldr rd rm) (loadData rd (s.getReg rm) s)
  /-- PUSH. -/
  | push (rn : RegIdx) : ExecEffect s (.push rn) (pushWord (s.getReg rn) s)
  /-- POP. -/
  | pop (rd : RegIdx) : ExecEffect s (.pop rd) (popWord rd s)
  /-- The sentinel. -/
  | halt : ExecEffect s .halt (sentinelHalt s)
  /-- A word of the unimplemented class. -/
  | unimplemented (low : BitVec 12) : ExecEffect s (.unimplemented low)
      (raise .unimplementedOpcode (encode (.unimplemented low)) s)

/-- `ExecEffect` says all that `exec` does. -/
theorem exec_effect {i : Instr} {s t : State} (h : exec i s = .next t) : ExecEffect s i t := by
  cases i with
  | add | sub | mul | and | or | not | xor | shr | shl | ror | rol =>
    cases h
    exact .alu _ rfl rfl ⟨rfl, rfl, rfl⟩
  | cmp rm rn => cases h; exact .compare rm rn
  | movImm | movReg => cases h; exact .move _ rfl ⟨rfl, rfl, rfl⟩
  | jmp | jeq | jlt | jgt =>
    cases h
    rw [branchIf_eq_setPc]
    exact .branch ⟨rfl, rfl, rfl⟩
  | nop =>
    cases h
    have hs : s.setPc (s.pc + BitVec.ofInt 16 (Instr.nop.pcOffset s.flags)) = s := by
      simp [Instr.pcOffset, State.setPc]
    simpa only [hs] using (.branch ⟨rfl, rfl, rfl⟩ : ExecEffect s .nop _)
  | strImm | strReg => cases h; exact .store _ _ rfl rfl rfl rfl
  | ldr rd rm => cases h; exact .load rd rm
  | push rn => cases h; exact .push rn
  | pop rd => cases h; exact .pop rd
  | halt => cases h; exact .halt
  | unimplemented low => cases h; exact .unimplemented low

/-- Every instruction answers a next state (60_exceptions.md R250). -/
theorem exec_next (i : Instr) (s : State) : ∃ t, exec i s = .next t := by
  cases i <;> exact ⟨_, rfl⟩

/-! ## One field after exec -/

section
variable {i : Instr} {s t : State}

theorem exec_pc (h : exec i s = .next t) : t.pc = s.pc + BitVec.ofInt 16 (i.pcOffset s.flags) := by
  cases exec_effect h with
  | branch => rfl
  | alu _ _ hd | move _ hd => simp [pcOffset_of_dest _ hd]
  | store _ _ _ _ _ hpc => simp [hpc]
  | compare | load | push | pop | halt | unimplemented => simp [Instr.pcOffset]

/-- Only HALT touches ir and the run state. -/
theorem exec_halts_or_keeps (h : exec i s = .next t) :
    (i = .halt ∧ t = sentinelHalt s) ∨ (t.run = s.run ∧ t.ir = s.ir) := by
  cases exec_effect h with
  | halt => exact .inl ⟨rfl, rfl⟩
  | alu | compare | move | branch | store | load | push | pop | unimplemented => right; simp

theorem exec_flags_of_not_writesFlags (h : exec i s = .next t) (hf : i.writesFlags = false) :
    t.flags = s.flags := by
  cases exec_effect h with
  | alu _ hw => simp [hw] at hf
  | compare => cases hf
  | move | branch | store | load | push | pop | halt | unimplemented => simp

theorem exec_getReg_of_ne_dest {r : RegIdx} (h : exec i s = .next t) (hr : i.dest ≠ some r) :
    t.getReg r = s.getReg r := by
  have other {rd : RegIdx} (hd : i.dest = some rd) : r ≠ rd := fun e => hr (e ▸ hd)
  cases exec_effect h with
  | alu _ _ hd => exact writeAlu_getReg_other _ _ _ _ (other hd)
  | move _ hd => exact State.setReg_getReg_other _ _ _ _ (other hd)
  | load => exact loadData_getReg_other _ _ _ _ (other rfl)
  | pop => exact popWord_getReg_other _ _ _ (other rfl)
  | compare | branch | store | push | halt | unimplemented => simp

theorem exec_sp_cases (h : exec i s = .next t) :
    t.sp = s.sp ∨
    ((∃ rn, i = .push rn) ∧ 0x8102 ≤ s.sp.toNat ∧ t.sp.toNat + 2 = s.sp.toNat) ∨
    ((∃ rd, i = .pop rd) ∧ s.sp.toNat ≤ 0x81FE ∧ t.sp.toNat = s.sp.toNat + 2) := by
  cases exec_effect h with
  | push rn =>
    rcases pushWord_cases (s.getReg rn) s with ⟨hle, e⟩ | ⟨_, e⟩
    · refine .inr (.inl ⟨⟨rn, rfl⟩, hle, ?_⟩)
      rw [e, State.setSp_sp]
      bv_omega
    · exact .inl (by simp [e])
  | pop rd =>
    rcases popWord_cases rd s with ⟨hle, e⟩ | ⟨_, e⟩
    · refine .inr (.inr ⟨⟨rd, rfl⟩, hle, ?_⟩)
      rw [e, State.setReg_sp, State.setSp_sp]
      bv_omega
    · exact .inl (by simp [e])
  | alu | compare | move | branch | store | load | halt | unimplemented => left; simp

theorem exec_pm (h : exec i s = .next t) : t.pm = s.pm := by
  cases exec_effect h <;> simp

/-- Data memory after an instruction is what its data port shows (10_state.md R41). -/
theorem exec_dm (h : exec i s = .next t) : t.dm = (applyDataPort (dataAccess i s) s).dm := by
  cases exec_effect h with
  | alu _ _ _ hq | move _ _ hq | branch hq => simp [hq.data, applyDataPort]
  | store a v hdata =>
    rcases storeData_cases a v s with ⟨hlt, e⟩ | ⟨hle, e⟩
    · have hk : (a.setWidth 8).toNat = a.toNat := by bv_omega
      simp [hdata, (dmInRange_iff a).2 hlt, e, applyDataPort, hk]
    · simp [hdata, dmInRange_iff, Nat.not_lt.2 hle, e, applyDataPort]
  | load rd rm => cases hin : dmInRange (s.getReg rm) <;> simp [dataAccess, hin, applyDataPort]
  | compare | push | pop | halt | unimplemented => simp [dataAccess, applyDataPort]

/-- The stack store after an instruction is what its stack port shows (10_state.md R41). -/
theorem exec_stk (h : exec i s = .next t) : t.stk = (applyStackPort (stackAccess i s) s).stk := by
  cases exec_effect h with
  | alu _ _ _ hq | move _ _ hq | branch hq => simp [hq.stack, applyStackPort]
  | store _ _ _ hstack => simp [hstack, applyStackPort]
  | push rn =>
    cases hin : pushAllowed s.sp <;> simp [pushWord, stackAccess, hin, applyStackPort]
  | pop rd => cases hin : popAllowed s.sp <;> simp [stackAccess, hin, applyStackPort]
  | compare | load | halt | unimplemented => simp [stackAccess, applyStackPort]

/-- An instruction appends the record of the condition it reports, if any. -/
theorem exec_reports (h : exec i s = .next t) :
    t.reports = s.reports ++ ((conditionOf i s).map s.recordOf).toList := by
  cases exec_effect h with
  | alu _ _ _ hq | move _ _ hq | branch hq => simp [hq.report]
  | store a v _ _ hreport =>
    cases hin : dmInRange a <;> simp [hreport, storeData, hin, State.recordOf]
  | load rd rm =>
    cases hin : dmInRange (s.getReg rm) <;> simp [conditionOf, loadData, hin, State.recordOf]
  | push rn =>
    cases hin : pushAllowed s.sp <;>
      simp [conditionOf, pushWord, hin, State.recordOf, State.setStackWord]
  | pop rd => cases hin : popAllowed s.sp <;> simp [conditionOf, popWord, hin, State.recordOf]
  | unimplemented => rfl
  | compare | halt => simp [conditionOf]

end

end Sys2Proof.Machine
end

section
/-! # The small facts of the state: reset, flags, registers, sp, pc (10_state.md) -/

namespace Sys2Proof.Machine

/-! ## Memory with nothing listed -/

/-- A memory that lists nothing reads as its fill (20_memory.md R51, R56, R62). -/
theorem Memory.readWord_nil (sp : Space) (i : Nat) : Memory.readWord sp [] i = sp.fill := by
  have hlo : sp.unlisted (2 * i) = lowByte sp.fill := if_pos (by omega)
  have hhi : sp.unlisted (2 * i + 1) = highByte sp.fill := if_neg (by omega)
  simp [Memory.readWord, Memory.readByte, hlo, hhi]

theorem reset_wordAt (sp : Space) (i : Nat) : State.reset.wordAt sp i = sp.fill := by
  cases sp <;> exact Memory.readWord_nil _ i

/-- At reset pc is 0, so the fetch reads word 0, whatever was loaded. -/
theorem fetchWord_reset (m : Memory) :
    fetchWord { State.reset with pm := m } = Memory.readWord .pm m 0 := by
  simp [fetchWord, State.wordAt, State.memory, pmIndex, State.reset]

theorem reset_getReg (r : RegIdx) : State.reset.getReg r = 0x0000#16 := by
  simp [State.reset, State.getReg]

/-! ## The sentinel is the only word that decodes to HALT (30_encoding.md R88, R90) -/

theorem decodeBranch_ne_halt (w : Word) : decodeBranch w ≠ .halt := by
  unfold decodeBranch
  split <;> exact Instr.noConfusion

theorem decodeOpZero_ne_halt (w : Word) : decodeOpZero w ≠ .halt := by
  unfold decodeOpZero
  split <;> exact Instr.noConfusion

theorem decodeByOp_ne_halt (w : Word) : decodeByOp w ≠ .halt := by
  unfold decodeByOp
  repeat' split
  · exact decodeBranch_ne_halt w
  · exact decodeOpZero_ne_halt w
  all_goals exact Instr.noConfusion

theorem decodeWord_eq_halt_iff (w : Word) : decodeWord w = .halt ↔ w = 0xFFFF#16 := by
  unfold decodeWord
  rw [hw_haltWord]
  split
  · simp [*]
  · simp [*, decodeByOp_ne_halt]

/-! ## A step, forwards, in each of its cases (40_engine_cycle.md R118) -/

theorem step_of_halted {s : State} {r : HaltReason} (h : s.run = .halted r) : step s = .next s := by
  simp [step, h]

theorem step_of_outside {s : State} (hr : s.run = .running) (hp : 0x0800 ≤ s.pc.toNat) :
    step s = .next (boundaryHalt s) := by
  simp [step, hr, (pcOutside_iff _).2 hp]

theorem step_of_exec {s u : State} (hs : Fetches s)
    (h : exec (decodeWord (fetchWord s)) (s.setIr (fetchWord s)) = .next u) :
    step s = .next (advancePc u) := by
  rw [step_of_fetches s hs, executeWord, h]

/-- The engine's +2 after an executed word (40_engine_cycle.md R116). -/
theorem advancePc_pc_of_running {s : State} (h : s.run = .running) :
    (advancePc s).pc = s.pc + 2#16 := by
  simp [advancePc, h]

end Sys2Proof.Machine

namespace Sys2Proof.Proofs

open Sys2Proof.Machine

/-- Settles O1: `State.reset` has pc = 0, so the step is inside program memory and fetches word 0. -/
theorem resetValues : Obligations.ResetValues := by
  refine ⟨reset_getReg, rfl, fun m => ⟨fetchWord_reset m, ?_⟩⟩
  have hf : Fetches { State.reset with pm := m } := ⟨rfl, by simp [State.reset]⟩
  rw [step_of_fetches _ hf, fetchWord_reset]

/-- Settles O53: no byte is listed after reset, so each word is its space's fill. -/
theorem resetMemoriesAndEngine : Obligations.ResetMemoriesAndEngine :=
  ⟨rfl, rfl, fun _ _ => reset_wordAt .pm _, fun _ _ => reset_wordAt .dm _,
    fun _ _ => reset_wordAt .stk _, rfl, rfl⟩

/-- Settles O41: each flag writer reads registers alone and overwrites all four flags. -/
theorem flagWritersIgnoreOldFlags : Obligations.FlagWritersIgnoreOldFlags := by
  intro i s f hi
  cases i with
  | add | sub | mul | and | or | not | xor | shr | shl | ror | rol =>
    exact congrArg Host.Outcome.next (writeAlu_setFlags _ _ f s)
  | cmp => rfl
  | jmp | jeq | jlt | jgt | nop | push | pop | movImm | movReg | strImm | strReg | ldr | halt
  | unimplemented => cases hi

/-- Settles O42. -/
theorem otherInstructionsKeepFlags : Obligations.OtherInstructionsKeepFlags :=
  fun _ _ _ h hf => exec_flags_of_not_writesFlags h hf

/-- Settles O43, by its contrapositive. -/
theorem onlyDestinationRegisterChanges : Obligations.OnlyDestinationRegisterChanges :=
  fun _ _ _ _ h hne => by_contra fun hd => hne (exec_getReg_of_ne_dest h hd)

/-- Settles O44. -/
theorem onlyPushAndPopMoveSp : Obligations.OnlyPushAndPopMoveSp :=
  fun _ _ _ h => exec_sp_cases h

/-- Settles O18: a word that is no sentinel keeps the engine Running, so exec's displacement and
the engine's +2 add up. -/
theorem executedWordAdvancesPc : Obligations.ExecutedWordAdvancesPc := by
  intro s hrun hpc hw
  obtain ⟨u, hu⟩ := exec_next (decodeWord (fetchWord s)) (s.setIr (fetchWord s))
  rcases exec_halts_or_keeps hu with ⟨hi, _⟩ | ⟨hurun, huir⟩
  · exact absurd ((decodeWord_eq_halt_iff _).1 hi) hw
  · rw [State.setIr_run, hrun] at hurun
    refine ⟨advancePc u, step_of_exec ⟨hrun, hpc⟩ hu, by simpa using huir, by simpa using hurun, ?_⟩
    rw [advancePc_pc_of_running hurun, exec_pc hu, BitVec.ofInt_add, BitVec.ofInt_add]
    simp

end Sys2Proof.Proofs
end

section
/-! # The report stream and ir never affect execution (10_state.md R28, R38)

The relation of two machines is `State.withLog`: the same state with another report stream and
another ir. Each operation, then `exec`, then `step` keeps it; a run follows by induction. -/

namespace Sys2Proof.Machine

/-- The state with another report stream and another ir. -/
def State.withLog (s : State) (l : List Report) (w : Word) : State := { s with reports := l, ir := w }

/-- `t'` is `t` but for the report stream and ir. -/
def EqButLog (t t' : State) : Prop := ∃ l w, t' = t.withLog l w

theorem EqButLog.of_withLog (s : State) (l : List Report) (w : Word) : EqButLog s (s.withLog l w) :=
  ⟨l, w, rfl⟩

/-! ## The operations that branch -/

section
variable (s : State) (l : List Report) (w : Word)

theorem branchIf_withLog (taken : Bool) (d : BitVec 9) :
    EqButLog (branchIf taken d s) (branchIf taken d (s.withLog l w)) := by
  cases taken <;> exact ⟨_, _, rfl⟩

theorem storeData_withLog (a v : Word) :
    EqButLog (storeData a v s) (storeData a v (s.withLog l w)) := by
  cases h : dmInRange a <;> simp only [storeData, h] <;> exact ⟨_, _, rfl⟩

theorem loadData_withLog (rd : RegIdx) (a : Word) :
    EqButLog (loadData rd a s) (loadData rd a (s.withLog l w)) := by
  cases h : dmInRange a <;> simp only [loadData, h] <;> exact ⟨_, _, rfl⟩

theorem pushWord_withLog (v : Word) :
    EqButLog (pushWord v s) (pushWord v (s.withLog l w)) := by
  have hsp : (s.withLog l w).sp = s.sp := rfl
  cases h : pushAllowed s.sp <;> simp only [pushWord, hsp, h] <;> exact ⟨_, _, rfl⟩

theorem popWord_withLog (rd : RegIdx) :
    EqButLog (popWord rd s) (popWord rd (s.withLog l w)) := by
  have hsp : (s.withLog l w).sp = s.sp := rfl
  cases h : popAllowed s.sp <;> simp only [popWord, hsp, h] <;> exact ⟨_, _, rfl⟩

theorem advancePc_withLog : EqButLog (advancePc s) (advancePc (s.withLog l w)) := by
  have hrun : (s.withLog l w).run = s.run := rfl
  cases h : s.run <;> simp only [advancePc, hrun, h] <;> exact ⟨_, _, rfl⟩

/-! ## exec, step and run -/

/-- Every instruction keeps the relation: its operands are registers, flags, sp and memory. -/
theorem exec_withLog (i : Instr) {t : State} (h : exec i s = .next t) :
    ∃ t', exec i (s.withLog l w) = .next t' ∧ EqButLog t t' := by
  cases i with
  | jmp | jeq | jlt | jgt => cases h; exact ⟨_, rfl, branchIf_withLog s l w _ _⟩
  | strImm | strReg => cases h; exact ⟨_, rfl, storeData_withLog s l w _ _⟩
  | ldr => cases h; exact ⟨_, rfl, loadData_withLog s l w _ _⟩
  | push => cases h; exact ⟨_, rfl, pushWord_withLog s l w _⟩
  | pop => cases h; exact ⟨_, rfl, popWord_withLog s l w _⟩
  | nop | cmp | movImm | movReg | add | sub | mul | and | or | not | xor | shr | shl | ror | rol
  | halt | unimplemented => cases h; exact ⟨_, rfl, _, _, rfl⟩

/-- Every step keeps the relation. -/
theorem step_withLog {t : State} (h : step s = .next t) :
    ∃ t', step (s.withLog l w) = .next t' ∧ EqButLog t t' := by
  rcases step_cases s t h with ⟨⟨r, hr⟩, rfl⟩ | ⟨hr, hp, rfl⟩ | ⟨hr, hp, u, hu, rfl⟩
  · exact ⟨_, step_of_halted hr, .of_withLog t l w⟩
  · exact ⟨_, step_of_outside hr hp, _, _, rfl⟩
  · obtain ⟨_, hu', l', w', rfl⟩ := exec_withLog (s.setIr (fetchWord s)) l (fetchWord s) _ hu
    exact ⟨_, step_of_exec (s := s.withLog l w) ⟨hr, hp⟩ hu', advancePc_withLog u l' w'⟩

end

/-- A run of one step more that answers begins with a step that answers. -/
theorem core_run_succ_inv {n : Nat} {s t : State} (h : Sys2Proof.core.run (n + 1) s = .next t) :
    ∃ u, step s = .next u ∧ Sys2Proof.core.run n u = .next t := by
  cases hs : step s with
  | next u => exact ⟨u, rfl, core_run_succ_next n s u hs ▸ h⟩
  | fault f => exact nomatch f
  | refused r =>
    rw [core_run_succ_refused n s r hs] at h
    cases h

/-- Every run keeps the relation. -/
theorem run_withLog (n : Nat) (s t : State) (l : List Report) (w : Word)
    (h : Sys2Proof.core.run n s = .next t) :
    ∃ t', Sys2Proof.core.run n (s.withLog l w) = .next t' ∧ EqButLog t t' := by
  induction n generalizing s l w with
  | zero =>
    cases h
    exact ⟨_, rfl, .of_withLog _ l w⟩
  | succ n ih =>
    obtain ⟨u, hs, hrun⟩ := core_run_succ_inv h
    obtain ⟨_, hs', l', w', rfl⟩ := step_withLog s l w hs
    rw [core_run_succ_next n _ _ hs']
    exact ih u l' w' hrun

end Sys2Proof.Machine

namespace Sys2Proof.Proofs

open Sys2Proof.Machine

/-- Settles O48, by the simulation `run_withLog`. -/
theorem reportsAndIrNeverAffectExecution : Obligations.ReportsAndIrNeverAffectExecution := by
  intro n s t l w h
  obtain ⟨_, hrun, l', w', rfl⟩ := run_withLog n s t l w h
  exact ⟨l', w', hrun⟩

end Sys2Proof.Proofs
end

section
/-! # The ports account for a step (10_state.md R41)

What each port shows is tied to the decoded instruction by an `↔`; what a step does to the memories,
ir and the report stream is then read off the ports. -/

namespace Sys2Proof.Machine

/-! ## What an instruction shows on a port -/

/-- An address in range goes out on the 8-bit data port unchanged (20_memory.md R55). -/
theorem portAddress_iff (r : Word) (a : BitVec 8) :
    dmInRange r = true ∧ r.setWidth 8 = a ↔ a.toNat = r.toNat := by
  rw [dmInRange_iff]
  constructor
  · rintro ⟨hlt, rfl⟩
    bv_omega
  · intro h
    exact ⟨by omega, by bv_omega⟩

section
variable {i : Instr} {s : State}

theorem dataAccess_eq_read_iff {a : BitVec 8} {v : Word} :
    dataAccess i s = some (.read a v) ↔
      v = s.wordAt .dm a.toNat ∧ ∃ rd rm, i = .ldr rd rm ∧ a.toNat = (s.getReg rm).toNat := by
  cases i with
  | ldr rd rm =>
    have hport := portAddress_iff (s.getReg rm) a
    simp only [dataAccess, Option.ite_none_right_eq_some, Option.some.injEq, PortAccess.read.injEq,
      Instr.ldr.injEq]
    constructor
    · rintro ⟨hin, ha, rfl⟩
      have hk := hport.1 ⟨hin, ha⟩
      exact ⟨by rw [hk], rd, rm, ⟨rfl, rfl⟩, hk⟩
    · rintro ⟨rfl, _, _, ⟨rfl, rfl⟩, hk⟩
      obtain ⟨hin, ha⟩ := hport.2 hk
      exact ⟨hin, ha, by rw [hk]⟩
  | _ => simp [dataAccess]

theorem dataAccess_eq_write_iff {a : BitVec 8} {v : Word} :
    dataAccess i s = some (.write a v) ↔
      ∃ rm, a.toNat = (s.getReg rm).toNat ∧
        ((∃ imm, i = .strImm rm imm ∧ v = immOperand imm) ∨
          ∃ rn, i = .strReg rm rn ∧ v = s.getReg rn) := by
  cases i with
  | strImm rm | strReg rm => simp [dataAccess, ← portAddress_iff, and_assoc, eq_comm (a := v)]
  | _ => simp [dataAccess]

theorem stackAccess_eq_read_iff {a v : Word} :
    stackAccess i s = some (.read a v) ↔
      s.sp.toNat ≤ 0x81FE ∧ a.toNat = s.sp.toNat + 2 ∧ v = s.stackWord a ∧ ∃ rd, i = .pop rd := by
  cases i with
  | pop rd =>
    simp only [stackAccess, Option.ite_none_right_eq_some, Option.some.injEq,
      PortAccess.read.injEq, popAllowed_iff, hw_stackStep, Nat.cast_ofNat, u16_add_two]
    constructor
    · rintro ⟨hle, rfl, rfl⟩
      exact ⟨hle, by bv_omega, rfl, rd, rfl⟩
    · rintro ⟨hle, ha, rfl, -⟩
      obtain rfl : s.sp + 2#16 = a := by bv_omega
      exact ⟨hle, rfl, rfl⟩
  | _ => simp [stackAccess]

theorem stackAccess_eq_write_iff {a v : Word} :
    stackAccess i s = some (.write a v) ↔
      0x8102 ≤ s.sp.toNat ∧ a = s.sp ∧ ∃ rn, i = .push rn ∧ v = s.getReg rn := by
  cases i with
  | push rn => simp [stackAccess, ← pushAllowed_iff, eq_comm (a := a), eq_comm (a := v)]
  | _ => simp [stackAccess]

/-- InvalidRegister is raised by nothing and PcBoundary by no instruction (60_exceptions.md R255,
R260). -/
theorem conditionOf_reachable {c : Condition × Word} (h : conditionOf i s = some c) :
    c.1 ≠ .invalidRegister ∧ c.1 ≠ .pcBoundary := by
  cases i with
  | strImm | strReg | ldr | push | pop =>
    simp only [conditionOf, Option.ite_none_left_eq_some, Option.some.injEq] at h
    obtain ⟨-, rfl⟩ := h
    simp
  | unimplemented => cases h; simp
  | _ => cases h

end

/-! ## ir is on no port's path -/

theorem dataAccess_setIr (i : Instr) (s : State) (w : Word) :
    dataAccess i (s.setIr w) = dataAccess i s := by cases i <;> rfl

theorem stackAccess_setIr (i : Instr) (s : State) (w : Word) :
    stackAccess i (s.setIr w) = stackAccess i s := by cases i <;> rfl

theorem conditionOf_setIr (i : Instr) (s : State) (w : Word) :
    conditionOf i (s.setIr w) = conditionOf i s := by cases i <;> rfl

end Sys2Proof.Machine
end

section
/-! ## What a step shows on its ports and does to the fields behind them -/

namespace Sys2Proof.Machine

/-- The immediate is the same number in 16 bits (30_encoding.md R83). -/
theorem immOperand_eq_ofNat (imm : Byte) : immOperand imm = BitVec.ofNat 16 imm.toNat :=
  (BitVec.ofNat_toNat 16 imm).symm

section
variable {s t : State}

theorem transaction_of_not_fetches (h : ¬Fetches s) :
    (transaction s).pmRead = none ∧ (transaction s).dataPort = none ∧
      (transaction s).stackPort = none := by
  cases hr : s.run with
  | halted r => simp [transaction_of_halted s r hr]
  | running =>
    have hp : 0x0800 ≤ s.pc.toNat := Nat.le_of_not_lt fun hlt => h ⟨hr, hlt⟩
    simp [transaction_of_outside s hr hp]

/-- Program memory's port shows exactly the fetch (20_memory.md R52). -/
theorem transaction_pmRead_iff {k : BitVec 10} {w : Word} :
    (transaction s).pmRead = some (k, w) ↔
      Fetches s ∧ k.toNat = s.pc.toNat / 2 ∧ w = s.wordAt .pm (s.pc.toNat / 2) := by
  by_cases h : Fetches s
  · obtain ⟨-, hpc⟩ := id h
    have hk : BitVec.ofNat 10 (s.pc.toNat / 2) = k ↔ k.toNat = s.pc.toNat / 2 := by
      rw [← BitVec.toNat_inj, BitVec.toNat_ofNat]
      omega
    simp [transaction_of_fetches s h, h, fetchWord, pmIndex, hk, eq_comm (a := w)]
  · simp [transaction_of_not_fetches h, h]

theorem transaction_dataPort_iff {p : PortAccess 8} :
    (transaction s).dataPort = some p ↔
      Fetches s ∧ dataAccess (decodeWord (fetchWord s)) s = some p := by
  by_cases h : Fetches s
  · simp [transaction_of_fetches s h, h]
  · simp [transaction_of_not_fetches h, h]

theorem transaction_stackPort_iff {p : PortAccess 16} :
    (transaction s).stackPort = some p ↔
      Fetches s ∧ stackAccess (decodeWord (fetchWord s)) s = some p := by
  by_cases h : Fetches s
  · simp [transaction_of_fetches s h, h]
  · simp [transaction_of_not_fetches h, h]

theorem transaction_halted_iff : (transaction s).halted = true ↔ s.run ≠ .running := by
  unfold transaction
  cases s.run with
  | halted r => simp
  | running => cases pcOutside s.pc <;> simp

theorem transaction_haltReason_iff {r : HaltReason} :
    (transaction s).haltReason = some r ↔ s.run = .halted r := by
  unfold transaction
  cases s.run with
  | halted r => simp
  | running => cases pcOutside s.pc <;> simp

/-- The word of a step that fetches, run by exec and followed by the engine's +2. -/
theorem step_exec_of_fetches (hf : Fetches s) (h : step s = .next t) :
    ∃ u, exec (decodeWord (fetchWord s)) (s.setIr (fetchWord s)) = .next u ∧ t = advancePc u :=
  executeWord_next _ _ _ (step_of_fetches s hf ▸ h)

/-- Program memory is written by no step (20_memory.md R51). -/
theorem step_pm (h : step s = .next t) : t.pm = s.pm := by
  rcases step_cases s t h with ⟨-, rfl⟩ | ⟨-, -, rfl⟩ | ⟨-, -, u, hu, rfl⟩
  · rfl
  · rfl
  · simpa using exec_pm hu

theorem applyDataPort_setIr (p : Option (PortAccess 8)) (w : Word) :
    (applyDataPort p (s.setIr w)).dm = (applyDataPort p s).dm := by
  rcases p with _ | (_ | _) <;> rfl

theorem applyStackPort_setIr (p : Option (PortAccess 16)) (w : Word) :
    (applyStackPort p (s.setIr w)).stk = (applyStackPort p s).stk := by
  rcases p with _ | (_ | _) <;> rfl

/-- Data memory after a step is what the step's data port shows. -/
theorem step_dm (h : step s = .next t) :
    t.dm = (applyDataPort (transaction s).dataPort s).dm := by
  rcases step_cases s t h with ⟨⟨r, hr⟩, rfl⟩ | ⟨hr, hp, rfl⟩ | ⟨hr, hp, u, hu, rfl⟩
  · rw [transaction_of_halted _ r hr]; rfl
  · rw [transaction_of_outside s hr hp]; rfl
  · rw [transaction_of_fetches s ⟨hr, hp⟩, advancePc_dm, exec_dm hu, dataAccess_setIr,
      applyDataPort_setIr]

/-- The stack store after a step is what the step's stack port shows. -/
theorem step_stk (h : step s = .next t) :
    t.stk = (applyStackPort (transaction s).stackPort s).stk := by
  rcases step_cases s t h with ⟨⟨r, hr⟩, rfl⟩ | ⟨hr, hp, rfl⟩ | ⟨hr, hp, u, hu, rfl⟩
  · rw [transaction_of_halted _ r hr]; rfl
  · rw [transaction_of_outside s hr hp]; rfl
  · rw [transaction_of_fetches s ⟨hr, hp⟩, advancePc_stk, exec_stk hu, stackAccess_setIr,
      applyStackPort_setIr]

/-- The word fetched is in ir after the step, the sentinel too (40_engine_cycle.md R113, R115). -/
theorem step_ir_of_fetches (hf : Fetches s) (h : step s = .next t) : t.ir = fetchWord s := by
  obtain ⟨u, hu, rfl⟩ := step_exec_of_fetches hf h
  rcases exec_halts_or_keeps hu with ⟨hi, rfl⟩ | ⟨-, hir⟩
  · rw [(decodeWord_eq_halt_iff _).1 hi]; rfl
  · simpa using hir

/-- The record appended is that of the condition on the port (60_exceptions.md R251). -/
theorem step_reports (h : step s = .next t) :
    t.reports = s.reports ++
      ((transaction s).report.map fun c => (⟨c.1, s.pc, t.ir, c.2⟩ : Report)).toList := by
  rcases step_cases s t h with ⟨⟨r, hr⟩, rfl⟩ | ⟨hr, hp, rfl⟩ | ⟨hr, hp, u, hu, rfl⟩
  · simp [transaction_of_halted _ r hr]
  · rw [transaction_of_outside s hr hp]; rfl
  · rw [step_ir_of_fetches ⟨hr, hp⟩ h, transaction_of_fetches s ⟨hr, hp⟩, advancePc_reports,
      exec_reports hu, conditionOf_setIr]
    rfl

/-- The word on the data port of an LDR is in its destination after the step. -/
theorem step_getReg_of_dataRead {a : BitVec 8} {v : Word} (h : step s = .next t)
    (hp : (transaction s).dataPort = some (.read a v)) :
    ∃ rd, (decodeWord (fetchWord s)).dest = some rd ∧ t.getReg rd = v := by
  obtain ⟨hf, hread⟩ := transaction_dataPort_iff.1 hp
  obtain ⟨rfl, rd, rm, hi, hk⟩ := dataAccess_eq_read_iff.1 hread
  obtain ⟨u, hu, rfl⟩ := step_exec_of_fetches hf h
  rw [hi] at hu ⊢
  cases hu
  refine ⟨rd, rfl, ?_⟩
  rcases loadData_cases rd (s.getReg rm) (s.setIr (fetchWord s)) with ⟨-, e⟩ | ⟨hle, -⟩
  · simp [e, hk]
  · omega

/-- The word on the stack port of a POP is in its destination after the step, and sp at its
address. -/
theorem step_of_stackRead {a v : Word} (h : step s = .next t)
    (hp : (transaction s).stackPort = some (.read a v)) :
    t.sp = a ∧ ∃ rd, (decodeWord (fetchWord s)).dest = some rd ∧ t.getReg rd = v := by
  obtain ⟨hf, hread⟩ := transaction_stackPort_iff.1 hp
  obtain ⟨hle, ha, rfl, rd, hi⟩ := stackAccess_eq_read_iff.1 hread
  obtain rfl : s.sp + 2#16 = a := by bv_omega
  obtain ⟨u, hu, rfl⟩ := step_exec_of_fetches hf h
  rw [hi] at hu ⊢
  cases hu
  rcases popWord_cases rd (s.setIr (fetchWord s)) with ⟨-, e⟩ | ⟨hlt, -⟩
  · simp [e, Instr.dest, State.stackWord]
  · exact absurd hle (Nat.not_le.2 hlt)

end

end Sys2Proof.Machine

namespace Sys2Proof.Proofs

open Sys2Proof.Machine

/-- Settles O52: each port by its `↔`, then the fields behind the ports. -/
theorem portsAccountForStep : Obligations.PortsAccountForStep := by
  intro s t h
  refine ⟨fun _ _ => transaction_pmRead_iff, fun a v => ?_, fun a v => ?_, fun a v => ?_,
    fun a v => ?_, step_pm h, step_dm h, step_stk h, fun k w hk => ?_,
    fun _ _ => step_getReg_of_dataRead h, fun _ _ => step_of_stackRead h, transaction_halted_iff,
    fun _ => transaction_haltReason_iff, fun hnone => ?_, fun c info hsome => ?_⟩
  · rw [transaction_dataPort_iff, dataAccess_eq_read_iff]
  · simp only [transaction_dataPort_iff, dataAccess_eq_write_iff, immOperand_eq_ofNat]
  · rw [transaction_stackPort_iff, stackAccess_eq_read_iff]
  · rw [transaction_stackPort_iff, stackAccess_eq_write_iff]
  · obtain ⟨hf, -, rfl⟩ := transaction_pmRead_iff.1 hk
    exact step_ir_of_fetches hf h
  · simpa [hnone] using step_reports h
  · simpa [hsome] using step_reports h

end Sys2Proof.Proofs
end

section
/-! # Every step keeps the invariant

Each conjunct of `Inv` by itself: sp from `exec_sp_cases`, the memories from the ports, the halt
reason and the reports from `step_cases`. -/

namespace Sys2Proof.Machine

/-! ## What a port access keeps of its memory -/

theorem wf_applyDataPort (p : Option (PortAccess 8)) {s : State} (h : Memory.wf .dm s.dm) :
    Memory.wf .dm (applyDataPort p s).dm :=
  match p with
  | none | some (.read _ _) => h
  | some (.write a v) => Memory.wf_writeWord .dm s.dm a.toNat v h a.isLt

theorem wf_applyStackPort (p : Option (PortAccess 16)) {s : State} (h : Memory.wf .stk s.stk) :
    Memory.wf .stk (applyStackPort p s).stk :=
  match p with
  | none | some (.read _ _) => h
  | some (.write a v) => Memory.wf_writeWord .stk s.stk (stackIndex a) v h (stackIndex_lt a)

/-- An even stack address names an even entry (20_memory.md R60). -/
theorem stackIndex_even {a : Word} (he : a.toNat % 2 = 0) (hle : 0x8100 ≤ a.toNat) :
    stackIndex a % 2 = 0 := by
  rw [stackIndex_of_le a hle]
  omega

/-- A write at sp leaves the odd entries of the stack store alone. -/
theorem oddSlotsZero_applyStackPort {p : Option (PortAccess 16)} {s : State}
    (hsp : StackPointerInWindow s) (hodd : OddSlotsZero s)
    (hp : ∀ a v, p = some (.write a v) → a = s.sp) : OddSlotsZero (applyStackPort p s) := by
  obtain ⟨he, hlo, -⟩ := hsp
  rcases p with _ | (_ | ⟨a, v⟩)
  · exact hodd
  · exact hodd
  · obtain rfl := hp a v rfl
    intro k hk
    have hne : 2 * k + 1 ≠ stackIndex s.sp := by
      have := stackIndex_even he hlo
      omega
    exact (State.setWordAt_wordAt_other s .stk .stk _ _ v fun e => hne e.2).trans (hodd k hk)

/-! ## Each conjunct over a step -/

section
variable {s t : State}

theorem step_keeps_stackPointerInWindow (hs : StackPointerInWindow s) (h : step s = .next t) :
    StackPointerInWindow t := by
  rcases step_cases s t h with ⟨-, rfl⟩ | ⟨-, -, rfl⟩ | ⟨-, -, u, hu, rfl⟩
  · exact hs
  · exact hs
  · have hsp := exec_sp_cases hu
    simp only [State.setIr_sp] at hsp
    simp only [StackPointerInWindow, advancePc_sp] at hs ⊢
    rcases hsp with e | ⟨-, hle, e⟩ | ⟨-, hle, e⟩
    · rwa [e]
    · omega
    · omega

theorem step_keeps_memoriesCanonical (hs : MemoriesCanonical s) (h : step s = .next t) :
    MemoriesCanonical t := by
  obtain ⟨hpm, hdm, hstk⟩ := hs
  refine ⟨?_, ?_, ?_⟩
  · rwa [step_pm h]
  · rw [step_dm h]
    exact wf_applyDataPort _ hdm
  · rw [step_stk h]
    exact wf_applyStackPort _ hstk

theorem step_keeps_oddSlotsZero (hsp : StackPointerInWindow s) (hodd : OddSlotsZero s)
    (h : step s = .next t) : OddSlotsZero t := by
  have hwrite : ∀ a v, (transaction s).stackPort = some (.write a v) → a = s.sp := by
    intro a v hp
    obtain ⟨-, hacc⟩ := transaction_stackPort_iff.1 hp
    obtain ⟨-, ha, -⟩ := stackAccess_eq_write_iff.1 hacc
    exact ha
  intro k hk
  have hword : t.wordAt .stk (2 * k + 1) =
      (applyStackPort (transaction s).stackPort s).wordAt .stk (2 * k + 1) :=
    congrArg (Memory.readWord .stk · (2 * k + 1)) (step_stk h)
  rw [hword]
  exact oddSlotsZero_applyStackPort hsp hodd hwrite k hk

theorem step_keeps_haltReasonHolds (hs : HaltReasonHolds s) (h : step s = .next t) :
    HaltReasonHolds t := by
  rcases step_cases s t h with ⟨-, rfl⟩ | ⟨-, hp, rfl⟩ | ⟨hr, hp, u, hu, rfl⟩
  · exact hs
  · exact ⟨fun _ => hp, nofun⟩
  · rcases exec_halts_or_keeps hu with ⟨hi, rfl⟩ | ⟨hrun, -⟩
    · exact ⟨nofun, fun _ => ⟨hp, (decodeWord_eq_halt_iff _).1 hi, rfl⟩⟩
    · simp [HaltReasonHolds, hrun, hr]

theorem step_keeps_reportsAreReachable (hs : ReportsAreReachable s) (h : step s = .next t) :
    ReportsAreReachable t := by
  obtain ⟨hinv, hbnd⟩ := hs
  have hreports := step_reports h
  rcases step_cases s t h with ⟨-, rfl⟩ | ⟨hr, hp, rfl⟩ | ⟨hr, hp, u, hu, rfl⟩
  · exact ⟨hinv, hbnd⟩
  · rw [transaction_of_outside s hr hp] at hreports
    refine ⟨fun r hmem => ?_, fun _ => rfl⟩
    simp only [hreports, Option.map_some, Option.toList_some, List.mem_append,
      List.mem_singleton] at hmem
    rcases hmem with hmem | rfl
    · exact hinv r hmem
    · exact nofun
  · rw [transaction_of_fetches s ⟨hr, hp⟩] at hreports
    have hnew : ∀ r ∈ (advancePc u).reports, r.cond ≠ .invalidRegister ∧ r.cond ≠ .pcBoundary := by
      intro r hmem
      simp only [hreports, List.mem_append, Option.mem_toList, Option.map_eq_some_iff] at hmem
      rcases hmem with hmem | ⟨c, hc, rfl⟩
      · refine ⟨hinv r hmem, fun hb => ?_⟩
        rw [hbnd ⟨r, hmem, hb⟩] at hr
        cases hr
      · exact conditionOf_reachable hc
    exact ⟨fun r hmem => (hnew r hmem).1, fun ⟨r, hmem, hb⟩ => absurd hb (hnew r hmem).2⟩

end

end Sys2Proof.Machine

namespace Sys2Proof.Proofs

open Sys2Proof.Machine

/-- Settles O49, conjunct by conjunct. -/
theorem stepKeepsInvariant : Obligations.StepKeepsInvariant := by
  rintro s t ⟨hsp, hmem, hodd, hhalt, hreports⟩ h
  exact ⟨step_keeps_stackPointerInWindow hsp h, step_keeps_memoriesCanonical hmem h,
    step_keeps_oddSlotsZero hsp hodd h, step_keeps_haltReasonHolds hhalt h,
    step_keeps_reportsAreReachable hreports h⟩

end Sys2Proof.Proofs
end

section
/-! # The exit snapshot (10_state.md R40) -/

namespace Sys2Proof.Machine

theorem snapshot_of_running {s : State} (h : s.run = .running) : snapshot s = none := by
  simp [snapshot, h]

theorem snapshot_of_halted {s : State} {r : HaltReason} (h : s.run = .halted r) :
    snapshot s = some
      { regs := s.regs, flags := s.flags, pc := s.pc, ir := s.ir, sp := s.sp,
        stack := s.liveStack, data := (List.range 256).map (s.wordAt .dm), reason := r } := by
  simp [snapshot, h]

/-- The k-th live entry stands 2k below STACK_TOP, so at that distance from STACK_BASE in the store
(20_memory.md R59). -/
theorem stackWord_liveAddress (s : State) {k : Nat} (hk : k ≤ 128) :
    s.stackWord (liveAddress k) = s.wordAt .stk ((0x8200 - 2 * k - 0x8100) % 256) := by
  have ha : (liveAddress k).toNat = 0x8200 - 2 * k := by
    rw [liveAddress, hw_stackTop, hw_stackStep, BitVec.toNat_ofNat]
    omega
  rw [State.stackWord, stackIndex_of_le _ (by omega), ha]

theorem liveStack_length (s : State) : s.liveStack.length = (0x8200 - s.sp.toNat) / 2 := by
  simp [State.liveStack, State.stackDepth]

theorem liveStack_getElem? {s : State} (hs : StackPointerInWindow s) {k : Nat}
    (hk : k < s.liveStack.length) :
    s.liveStack[k]? = some (s.wordAt .stk ((0x8200 - 2 * k - 0x8100) % 256)) := by
  have hk' := hk
  rw [liveStack_length] at hk'
  have hdepth : k < s.stackDepth := by simpa [State.liveStack] using hk
  have hle : k ≤ 128 := by
    obtain ⟨-, hlo, -⟩ := hs
    omega
  simp [State.liveStack, hdepth, stackWord_liveAddress s hle]

end Sys2Proof.Machine

namespace Sys2Proof.Proofs

open Sys2Proof.Machine

/-- Settles O51. -/
theorem snapshotShowsHaltedState : Obligations.SnapshotShowsHaltedState := by
  refine ⟨fun _ hr => snapshot_of_running hr, fun s r hs hr => ?_⟩
  refine ⟨_, snapshot_of_halted hr, rfl, rfl, rfl, rfl, rfl, rfl, liveStack_length s,
    fun k hk => liveStack_getElem? hs hk, by simp, fun i hi => by simp [hi]⟩

end Sys2Proof.Proofs
end

section
/-! # The stack unit is a bounded list (20_memory.md R60, R63)

PUSH and POP are read as `l ↦ l ++ [v]` and its inverse: two states whose depths differ by one, with
the shared entries alike, have live stacks that differ by one last entry. -/

namespace Sys2Proof.Machine

/-! ## The depth, and the address below the live entries -/

/-- sp points to the free word below the live entries: its distance from STACK_TOP counts them. -/
theorem stackDepth_of_window {s : State} (hs : StackPointerInWindow s) :
    s.sp.toNat + 2 * s.stackDepth = 0x8200 := by
  obtain ⟨heven, -, hle⟩ := hs
  rw [State.stackDepth, hw_stackTop, hw_stackStep]
  omega

/-- The first address that is not live is sp, where the next entry goes (10_state.md R40). -/
theorem liveAddress_stackDepth {s : State} (hs : StackPointerInWindow s) :
    liveAddress s.stackDepth = s.sp := by
  have hdepth := stackDepth_of_window hs
  rw [liveAddress, hw_stackTop, hw_stackStep]
  bv_omega

/-- There is room exactly for 128 entries (decision D21). -/
theorem liveStack_length_lt_iff {s : State} (hs : StackPointerInWindow s) :
    s.liveStack.length < 128 ↔ 0x8102 ≤ s.sp.toNat := by
  rw [liveStack_length]
  omega

theorem liveStack_length_le {s : State} (hs : StackPointerInWindow s) :
    s.liveStack.length ≤ 128 := by
  rw [liveStack_length]
  omega

theorem liveStack_eq_nil_iff {s : State} (hs : StackPointerInWindow s) :
    s.liveStack = [] ↔ 0x81FE < s.sp.toNat := by
  rw [← List.length_eq_zero_iff, liveStack_length]
  omega

/-! ## The live stack after the operations -/

theorem raise_liveStack (c : Condition) (info : Word) (s : State) :
    (raise c info s).liveStack = s.liveStack := rfl

/-- One entry more, with those below it alike, is one entry appended. -/
theorem liveStack_eq_append {s t : State} (hdepth : t.stackDepth = s.stackDepth + 1)
    (hshared : ∀ k < s.stackDepth, t.stackWord (liveAddress k) = s.stackWord (liveAddress k)) :
    t.liveStack = s.liveStack ++ [t.stackWord (liveAddress s.stackDepth)] := by
  rw [State.liveStack, hdepth, List.range_succ, List.map_append, List.map_singleton]
  congr 1
  exact List.map_congr_left fun k hk => hshared k (List.mem_range.1 hk)

/-- The free word at sp shares no backing index with a live entry (20_memory.md R59). -/
theorem stackIndex_liveAddress_ne {s : State} (hs : StackPointerInWindow s)
    (hroom : 0x8102 ≤ s.sp.toNat) {k : Nat} (hk : k < s.stackDepth) :
    stackIndex (liveAddress k) ≠ stackIndex s.sp := by
  have hdepth := stackDepth_of_window hs
  have ha : (liveAddress k).toNat = 0x8200 - 2 * k := by
    rw [liveAddress, hw_stackTop, hw_stackStep, BitVec.toNat_ofNat]
    omega
  rw [stackIndex_of_le _ (by omega), stackIndex_of_le _ (by omega), ha]
  omega

/-- PUSH with room appends the value (42_opcode0_stack_cmp.md R151). -/
theorem pushWord_liveStack {s : State} (hs : StackPointerInWindow s)
    (hroom : 0x8102 ≤ s.sp.toNat) (v : Word) :
    ((s.setStackWord s.sp v).setSp (s.sp - 2#16)).liveStack = s.liveStack ++ [v] := by
  have hdepth : ((s.setStackWord s.sp v).setSp (s.sp - 2#16)).stackDepth = s.stackDepth + 1 := by
    have := stackDepth_of_window hs
    simp only [State.stackDepth, State.setSp_sp, hw_stackTop, hw_stackStep] at this ⊢
    bv_omega
  rw [liveStack_eq_append hdepth fun k hk => ?shared, liveAddress_stackDepth hs]
  · simp [State.stackWord, State.setStackWord]
  case shared =>
    have hne := stackIndex_liveAddress_ne hs hroom hk
    simp [State.stackWord, State.setStackWord, State.setWordAt_wordAt_other, hne]

/-- Moving sp up by one word, with the store unchanged, takes the last entry off: the word at the
new sp (42_opcode0_stack_cmp.md R152). -/
theorem liveStack_eq_append_of_sp_up {s t : State} (hs : StackPointerInWindow s)
    (hlive : s.sp.toNat ≤ 0x81FE) (hsp : t.sp = s.sp + 2#16) (hstk : t.stk = s.stk) :
    s.liveStack = t.liveStack ++ [s.stackWord (s.sp + 2#16)] := by
  have ht : StackPointerInWindow t := by
    simp only [StackPointerInWindow, hsp] at hs ⊢
    bv_omega
  have hdepth : s.stackDepth = t.stackDepth + 1 := by
    have h1 := stackDepth_of_window hs
    have h2 := stackDepth_of_window ht
    rw [hsp] at h2
    bv_omega
  have hword (a : Word) : s.stackWord a = t.stackWord a :=
    congrArg (Memory.readWord .stk · (stackIndex a)) hstk.symm
  rw [liveStack_eq_append hdepth fun k _ => hword _, liveAddress_stackDepth ht, hsp]

/-! ## PUSH and POP on the list -/

/-- sp stays even and in its window (10_state.md R34). -/
theorem exec_keeps_stackPointerInWindow {i : Instr} {s t : State} (hs : StackPointerInWindow s)
    (h : exec i s = .next t) : StackPointerInWindow t := by
  obtain ⟨heven, hlo, hhi⟩ := hs
  rcases exec_sp_cases h with e | ⟨-, hroom, e⟩ | ⟨-, hlive, e⟩
  · rw [StackPointerInWindow, e]
    exact ⟨heven, hlo, hhi⟩
  · exact ⟨by omega, by omega, by omega⟩
  · exact ⟨by omega, by omega, by omega⟩

/-- PUSH as an operation on the list. -/
theorem pushWord_bounded_append {s : State} (hs : StackPointerInWindow s) (v : Word) :
    (s.liveStack.length < 128 →
      (pushWord v s).liveStack = s.liveStack ++ [v] ∧ (pushWord v s).reports = s.reports) ∧
    (s.liveStack.length = 128 →
      (pushWord v s).liveStack = s.liveStack ∧
        (pushWord v s).reports = s.reports ++ [⟨.stackOverflow, s.pc, s.ir, 0x8100#16⟩]) := by
  have hlen := liveStack_length_lt_iff hs
  rcases pushWord_cases v s with ⟨hroom, e⟩ | ⟨hfull, e⟩
  · refine ⟨fun _ => ?_, fun h => by omega⟩
    rw [e]
    exact ⟨pushWord_liveStack hs hroom v, by simp [State.setStackWord]⟩
  · have hsp : s.sp = 0x8100#16 := by
      obtain ⟨heven, hlo, -⟩ := hs
      bv_omega
    refine ⟨fun h => by omega, fun _ => ?_⟩
    rw [e, raise_liveStack, raise_reports, hsp]
    exact ⟨rfl, rfl⟩

/-- POP as an operation on the list. -/
theorem popWord_takes_last {s : State} (hs : StackPointerInWindow s) (rd : RegIdx) :
    (∀ l v, s.liveStack = l ++ [v] →
      (popWord rd s).liveStack = l ∧ (popWord rd s).getReg rd = v ∧
        (popWord rd s).reports = s.reports) ∧
    (s.liveStack = [] →
      (popWord rd s).liveStack = [] ∧ (popWord rd s).getReg rd = s.getReg rd ∧
        (popWord rd s).reports = s.reports ++ [⟨.stackUnderflow, s.pc, s.ir, 0x8200#16⟩]) := by
  have hnil := liveStack_eq_nil_iff hs
  rcases popWord_cases rd s with ⟨hlive, e⟩ | ⟨hempty, e⟩
  · refine ⟨fun l v hl => ?_, fun h => absurd (hnil.1 h) (by omega)⟩
    have hpop : s.liveStack = (popWord rd s).liveStack ++ [s.stackWord (s.sp + 2#16)] :=
      liveStack_eq_append_of_sp_up hs hlive (by rw [e]; rfl) (popWord_stk rd s)
    obtain ⟨rfl, hv⟩ := List.append_inj' (hpop.symm.trans hl) rfl
    refine ⟨rfl, ?_, by simp [e]⟩
    rw [e, State.setReg_getReg_same]
    exact List.singleton_inj.1 hv
  · have hsp : s.sp = 0x8200#16 := by
      obtain ⟨heven, -, hhi⟩ := hs
      bv_omega
    refine ⟨fun l v hl => by simp [hnil.2 hempty] at hl, fun h => ?_⟩
    rw [e, raise_liveStack, raise_reports, raise_getReg, hsp]
    exact ⟨h, rfl, rfl⟩

end Sys2Proof.Machine

namespace Sys2Proof.Proofs

open Sys2Proof.Machine

/-- Settles O28: exec of PUSH and POP is `pushWord` and `popWord`, which act on the live stack. -/
theorem stackUnitIsBoundedList : Obligations.StackUnitIsBoundedList :=
  ⟨fun rn s hs => ⟨pushWord (s.getReg rn) s, rfl,
      exec_keeps_stackPointerInWindow (i := .push rn) hs rfl, pushWord_bounded_append hs _⟩,
    fun rd s hs => ⟨popWord rd s, rfl,
      exec_keeps_stackPointerInWindow (i := .pop rd) hs rfl, popWord_takes_last hs rd⟩,
    fun _ hs => liveStack_length_le hs⟩

end Sys2Proof.Proofs
end

section
/-! # The three memories: what reads, what writes (20_memory.md) -/

namespace Sys2Proof.Machine

/-! ## The fetch index (20_memory.md R52) -/

/-- Bit 0 of pc does not reach the fetch index: set (decision D5). -/
theorem pmIndex_or_one (pc : Word) : pmIndex (pc ||| 0x0001#16) = pmIndex pc := by
  rw [pmIndex, BitVec.toNat_or, Nat.or_div_two]
  exact Nat.or_zero _

/-- Bit 0 of pc does not reach the fetch index: cleared (decision D5). -/
theorem pmIndex_and_even (pc : Word) : pmIndex (pc &&& 0xFFFE#16) = pmIndex pc := by
  have hmask : (0xFFFE#16).toNat / 2 = 2 ^ 15 - 1 := by decide
  rw [pmIndex, BitVec.toNat_and, Nat.and_div_two, hmask, Nat.and_two_pow_sub_one_eq_mod, pmIndex]
  omega

/-! ## A load after a store (20_memory.md R57, R70) -/

theorem storeData_wordAt_dm {a : Word} (ha : a.toNat < 256) (v b : Word) (s : State) :
    (storeData a v s).wordAt .dm b.toNat = if b = a then v else s.wordAt .dm b.toNat := by
  rcases storeData_cases a v s with ⟨-, e⟩ | ⟨hle, -⟩
  · rw [e]
    split
    next hba => rw [hba, State.setWordAt_wordAt_same]
    next hba =>
      exact State.setWordAt_wordAt_other _ _ _ _ _ _ fun h => hba (BitVec.eq_of_toNat_eq h.2)
  · omega

theorem loadData_getReg_same {a : Word} (ha : a.toNat < 256) (rd : RegIdx) (s : State) :
    (loadData rd a s).getReg rd = s.wordAt .dm a.toNat := by
  rcases loadData_cases rd a s with ⟨-, e⟩ | ⟨hle, -⟩
  · rw [e, State.setReg_getReg_same]
  · omega

/-! ## A byte that changes is behind a write on its port (20_memory.md R50, R67) -/

section
variable {s : State} {k : Nat}

theorem setWordAt_byteAt_ne {sp sp' : Space} {i : Nat} {v : Word}
    (h : (s.setWordAt sp i v).byteAt sp' k ≠ s.byteAt sp' k) : sp' = sp ∧ k / 2 = i := by
  by_contra hne
  exact h (State.setWordAt_byteAt_other _ _ _ _ _ _ fun ⟨hsp, hk⟩ => hne ⟨hsp, by omega⟩)

theorem applyDataPort_byteAt_ne {p : Option (PortAccess 8)} {sp : Space}
    (h : (applyDataPort p s).byteAt sp k ≠ s.byteAt sp k) :
    ∃ a v, p = some (.write a v) ∧ k / 2 = a.toNat := by
  rcases p with _ | (_ | ⟨a, v⟩)
  · exact absurd rfl h
  · exact absurd rfl h
  · exact ⟨a, v, rfl, (setWordAt_byteAt_ne h).2⟩

theorem applyStackPort_byteAt_ne {p : Option (PortAccess 16)} {sp : Space}
    (h : (applyStackPort p s).byteAt sp k ≠ s.byteAt sp k) :
    ∃ a v, p = some (.write a v) ∧ k / 2 = stackIndex a := by
  rcases p with _ | (_ | ⟨a, v⟩)
  · exact absurd rfl h
  · exact absurd rfl h
  · exact ⟨a, v, rfl, (setWordAt_byteAt_ne h).2⟩

variable {i : Instr} {t : State}

/-- STR in range is all that changes a byte of data memory. -/
theorem exec_dm_byteAt_ne (h : exec i s = .next t) (hne : t.byteAt .dm k ≠ s.byteAt .dm k) :
    ∃ rm, ((∃ imm, i = .strImm rm imm) ∨ ∃ rn, i = .strReg rm rn) ∧
      (s.getReg rm).toNat < 256 ∧ k / 2 = (s.getReg rm).toNat := by
  have hbyte : t.byteAt .dm k = (applyDataPort (dataAccess i s) s).byteAt .dm k :=
    congrArg (Memory.readByte .dm · k) (exec_dm h)
  obtain ⟨a, v, hport, hk⟩ := applyDataPort_byteAt_ne (hbyte ▸ hne)
  obtain ⟨rm, ha, hi⟩ := dataAccess_eq_write_iff.1 hport
  refine ⟨rm, ?_, by omega, by omega⟩
  rcases hi with ⟨imm, rfl, -⟩ | ⟨rn, rfl, -⟩
  · exact .inl ⟨imm, rfl⟩
  · exact .inr ⟨rn, rfl⟩

/-- PUSH with room is all that changes a byte of the stack store. -/
theorem exec_stk_byteAt_ne (h : exec i s = .next t) (hne : t.byteAt .stk k ≠ s.byteAt .stk k) :
    (∃ rn, i = .push rn) ∧ 0x8102 ≤ s.sp.toNat ∧ k / 2 = stackIndex s.sp := by
  have hbyte : t.byteAt .stk k = (applyStackPort (stackAccess i s) s).byteAt .stk k :=
    congrArg (Memory.readByte .stk · k) (exec_stk h)
  obtain ⟨a, v, hport, hk⟩ := applyStackPort_byteAt_ne (hbyte ▸ hne)
  obtain ⟨hroom, rfl, rn, rfl, -⟩ := stackAccess_eq_write_iff.1 hport
  exact ⟨⟨rn, rfl⟩, hroom, hk⟩

end

end Sys2Proof.Machine

namespace Sys2Proof.Proofs

open Sys2Proof.Machine

/-- Settles O19. -/
theorem fetchRoundsOddPcDown : Obligations.FetchRoundsOddPcDown := by
  refine ⟨fun _ => rfl, fun s => ?_, pcOutside_iff⟩
  simp [fetchWord, pmIndex_or_one, pmIndex_and_even]

/-- Settles O34: the store keeps the registers, so the load reads the word at Ra's old value. -/
theorem loadAfterStoreReturnsStoredWord : Obligations.LoadAfterStoreReturnsStoredWord := by
  intro rm rn rd ra s hrm hra
  refine ⟨_, _, rfl, rfl, ?_⟩
  rw [storeData_getReg, loadData_getReg_same hra, storeData_wordAt_dm hrm]

/-- Settles O45. -/
theorem programMemoryNeverChanges : Obligations.ProgramMemoryNeverChanges :=
  fun _ _ h => step_pm h

/-- Settles O46, space by space. -/
theorem onlyStrAndPushWriteMemory : Obligations.OnlyStrAndPushWriteMemory := by
  intro i s t sp k h hne
  cases sp with
  | pm => exact absurd (congrArg (Memory.readByte .pm · k) (exec_pm h)) hne
  | dm => exact .inl ⟨rfl, exec_dm_byteAt_ne h hne⟩
  | stk => exact .inr ⟨rfl, exec_stk_byteAt_ne h hne⟩

end Sys2Proof.Proofs
end

section
/-! # The encoding (30_encoding.md)

A word belongs to the row of R89 whose match it has under the row's mask, and its operands are its
fields. `Instr.withFieldsOf` puts a word's fields into a row; four lemmas about it carry every
statement: the decoder answers the row that the word matches (`decodeWord_of_matches`) and no other
(`decodeWord_matches`), the encoder gives back the used bits (`encode_withFieldsOf`), and a
well-formed instruction is read back from its own word (`withFieldsOf_encode`). -/

namespace Sys2Proof

open Machine

/-! ## Fields at their place in a word (R81, R86) -/

theorem getLsbD_atBit {n : Nat} (f : BitVec n) (lo k : Nat) :
    (atBit f lo).getLsbD k = (decide (k < 16) && decide (lo ≤ k) && f.getLsbD (k - lo)) := by
  by_cases hk : k < 16 <;> by_cases hlo : k < lo <;>
    simp [atBit, hk, hlo, show (lo ≤ k) ↔ ¬ k < lo by omega]

/-- A field of a word, put back at its place, is the word under the field's mask. -/
theorem atBit_extractLsb' (w : Word) (lo n : Nat) :
    atBit (w.extractLsb' lo n) lo = w &&& atBit (BitVec.allOnes n) lo := by
  apply BitVec.eq_of_getLsbD_eq
  intro k hk
  rw [BitVec.getLsbD_and, getLsbD_atBit, getLsbD_atBit]
  by_cases hlo : lo ≤ k
  · simp [hk, hlo, Bool.and_comm]
  · simp [hlo]

@[simp] theorem extractLsb'_atBit_same {n lo : Nat} (f : BitVec n) (h : lo + n ≤ 16) :
    (atBit f lo).extractLsb' lo n = f := by
  apply BitVec.eq_of_getLsbD_eq
  intro k hk
  have hk16 : lo + k < 16 := by omega
  rw [BitVec.getLsbD_extractLsb', getLsbD_atBit]
  simp [hk, hk16]

@[simp] theorem extractLsb'_atBit_disjoint {n lo : Nat} (f : BitVec n) {start len : Nat}
    (h : start + len ≤ lo ∨ lo + n ≤ start) : (atBit f lo).extractLsb' start len = 0#len := by
  apply BitVec.eq_of_getLsbD_eq
  intro k hk
  rw [BitVec.getLsbD_extractLsb', getLsbD_atBit]
  rcases h with hbelow | habove
  · have hlo : ¬ lo ≤ start + k := by omega
    simp [hlo]
  · have hbit : f.getLsbD (start + k - lo) = false := BitVec.getLsbD_of_ge _ _ (by omega)
    simp [hbit]

@[simp] theorem toFin_regBits (r : RegIdx) : (regBits r).toFin = r := rfl

@[simp] theorem atBit_regBits_zero (lo : Nat) : atBit (regBits 0) lo = 0#16 := by
  simp [atBit, regBits]

/-- A literal field at its place, so that `simp` can compute it. -/
@[simp] theorem atBit_ofNat (n m lo : Nat) :
    atBit (BitVec.ofNat n m) lo = (BitVec.ofNat n m).zeroExtend 16 <<< lo := rfl

/-- The address register of STR #imm is part of its immediate (R92). -/
theorem fieldRm_eq_fieldImm8 (w : Word) : fieldRm w = ((fieldImm8 w).extractLsb' 5 3).toFin := by
  have h : (w.extractLsb' 0 8).extractLsb' 5 3 = w.extractLsb' 5 3 := by
    apply BitVec.eq_of_getLsbD_eq
    intro k hk
    have hk8 : 5 + k < 8 := by omega
    rw [BitVec.getLsbD_extractLsb', BitVec.getLsbD_extractLsb', BitVec.getLsbD_extractLsb']
    simp [hk8]
  rw [fieldRm, fieldImm8, h]

/-! ## The fields that each format encodes (R86) -/

@[simp] theorem fieldDisp_encodeBR (d : BitVec 9) (c : BitVec 2) :
    fieldDisp (encodeBR d c) = d := by
  simp [fieldDisp, encodeBR, BitVec.extractLsb'_or]

@[simp] theorem fieldRd_encodeR0 (rd rm rn : RegIdx) (sub : BitVec 2) :
    fieldRd (encodeR0 rd rm rn sub) = rd := by
  simp [fieldRd, encodeR0, BitVec.extractLsb'_or]

@[simp] theorem fieldRm_encodeR0 (rd rm rn : RegIdx) (sub : BitVec 2) :
    fieldRm (encodeR0 rd rm rn sub) = rm := by
  simp [fieldRm, encodeR0, BitVec.extractLsb'_or]

@[simp] theorem fieldRn_encodeR0 (rd rm rn : RegIdx) (sub : BitVec 2) :
    fieldRn (encodeR0 rd rm rn sub) = rn := by
  simp [fieldRn, encodeR0, BitVec.extractLsb'_or]

@[simp] theorem fieldRd_encodeMI (rd : RegIdx) (imm : Byte) : fieldRd (encodeMI rd imm) = rd := by
  simp [fieldRd, encodeMI, BitVec.extractLsb'_or]

@[simp] theorem fieldImm8_encodeMI (rd : RegIdx) (imm : Byte) :
    fieldImm8 (encodeMI rd imm) = imm := by
  simp [fieldImm8, encodeMI, BitVec.extractLsb'_or]

@[simp] theorem fieldImm8_encodeSI (imm : Byte) : fieldImm8 (encodeSI imm) = imm := by
  simp [fieldImm8, encodeSI, BitVec.extractLsb'_or]

@[simp] theorem fieldRd_encodeR (op : BitVec 4) (rd rm rn : RegIdx) :
    fieldRd (encodeR op rd rm rn) = rd := by
  simp [fieldRd, encodeR, BitVec.extractLsb'_or]

@[simp] theorem fieldRm_encodeR (op : BitVec 4) (rd rm rn : RegIdx) :
    fieldRm (encodeR op rd rm rn) = rm := by
  simp [fieldRm, encodeR, BitVec.extractLsb'_or]

@[simp] theorem fieldRn_encodeR (op : BitVec 4) (rd rm rn : RegIdx) :
    fieldRn (encodeR op rd rm rn) = rn := by
  simp [fieldRn, encodeR, BitVec.extractLsb'_or]

/-! ## The fields of a word, encoded again -/

@[simp] theorem atBit_fieldRd (w : Word) : atBit (regBits (fieldRd w)) 8 = w &&& 0x0700#16 :=
  atBit_extractLsb' w 8 3

@[simp] theorem atBit_fieldRm (w : Word) : atBit (regBits (fieldRm w)) 5 = w &&& 0x00E0#16 :=
  atBit_extractLsb' w 5 3

@[simp] theorem atBit_fieldRn (w : Word) : atBit (regBits (fieldRn w)) 2 = w &&& 0x001C#16 :=
  atBit_extractLsb' w 2 3

theorem atBit_low12 (w : Word) : atBit (w.extractLsb' 0 12) 0 = w &&& 0x0FFF#16 :=
  atBit_extractLsb' w 0 12

theorem encodeBR_fieldDisp (w : Word) (c : BitVec 2) :
    encodeBR (fieldDisp w) c = (0x0800#16 ||| atBit c 0) ||| (w &&& 0x07FC#16) := by
  have hdisp : atBit (fieldDisp w) 2 = w &&& 0x07FC#16 := atBit_extractLsb' w 2 9
  rw [encodeBR, hdisp, BitVec.or_assoc, BitVec.or_comm (w &&& _), BitVec.or_assoc]

theorem encodeR0_eq_or (rd rm rn : RegIdx) (sub : BitVec 2) :
    encodeR0 rd rm rn sub = atBit sub 0 |||
      (atBit (regBits rd) 8 ||| atBit (regBits rm) 5 ||| atBit (regBits rn) 2) := by
  rw [encodeR0, BitVec.or_comm]

theorem encodeMI_fields (w : Word) :
    encodeMI (fieldRd w) (fieldImm8 w) = 0x1800#16 ||| (w &&& 0x07FF#16) := by
  have himm : atBit (fieldImm8 w) 0 = w &&& 0x00FF#16 := atBit_extractLsb' w 0 8
  rw [encodeMI, himm, atBit_fieldRd, BitVec.or_assoc, ← BitVec.and_or_distrib_left]
  rfl

theorem encodeSI_fieldImm8 (w : Word) :
    encodeSI (fieldImm8 w) = 0x2800#16 ||| (w &&& 0x00FF#16) :=
  congrArg (0x2800#16 ||| ·) (atBit_extractLsb' w 0 8)

theorem encodeR_eq_or (op : BitVec 4) (rd rm rn : RegIdx) :
    encodeR op rd rm rn = atBit op 12 |||
      (atBit (regBits rd) 8 ||| atBit (regBits rm) 5 ||| atBit (regBits rn) 2) := by
  simp only [encodeR, BitVec.or_assoc]

/-! ## The fields under a row's mask -/

theorem fieldOp_and (w m : Word) : fieldOp (w &&& m) = fieldOp w &&& fieldOp m :=
  BitVec.extractLsb'_and

theorem fieldI_and (w m : Word) : fieldI (w &&& m) = (fieldI w && fieldI m) :=
  BitVec.getLsbD_and

theorem fieldLow2_and (w m : Word) : fieldLow2 (w &&& m) = fieldLow2 w &&& fieldLow2 m :=
  BitVec.extractLsb'_and

theorem and_sentinel (w : Word) : w &&& 0xFFFF#16 = w := BitVec.and_allOnes

/-- The opcode of a literal word, so that `simp` can read it off. -/
@[simp] theorem fieldOp_ofNat (n : Nat) :
    fieldOp (BitVec.ofNat 16 n) = BitVec.ofNat 4 (n / 4096) := by
  apply BitVec.eq_of_toNat_eq
  simp only [fieldOp, BitVec.extractLsb'_toNat, BitVec.toNat_ofNat, Nat.shiftRight_eq_div_pow]
  omega

@[simp] theorem fieldI_ofNat (n : Nat) :
    fieldI (BitVec.ofNat 16 n) = (BitVec.ofNat 16 n).getLsbD 11 := rfl

@[simp] theorem fieldLow2_ofNat (n : Nat) :
    fieldLow2 (BitVec.ofNat 16 n) = BitVec.ofNat 2 n := by
  apply BitVec.eq_of_toNat_eq
  simp [fieldLow2]

theorem and_opMask (w : Word) : w &&& 0xF000#16 = atBit (fieldOp w) 12 :=
  (atBit_extractLsb' w 12 4).symm

theorem and_iMask (w : Word) : w &&& 0x0800#16 = atBit (BitVec.ofBool (fieldI w)) 11 := by
  have h : BitVec.ofBool (fieldI w) = w.extractLsb' 11 1 := by
    apply BitVec.eq_of_getLsbD_eq
    intro k hk
    have hk0 : k = 0 := by omega
    simp [hk0, fieldI]
  rw [h, atBit_extractLsb']
  rfl

theorem and_low2Mask (w : Word) : w &&& 0x0003#16 = atBit (fieldLow2 w) 0 :=
  (atBit_extractLsb' w 0 2).symm

/-! ## A row with the operands of a word -/

/-- The instruction of `i`'s row with the operands that `w` has in their fields (R87). -/
def Instr.withFieldsOf (w : Word) : Instr → Instr
  | .jmp _ => .jmp (fieldDisp w)
  | .jeq _ => .jeq (fieldDisp w)
  | .jlt _ => .jlt (fieldDisp w)
  | .jgt _ => .jgt (fieldDisp w)
  | .nop => .nop
  | .push _ => .push (fieldRn w)
  | .pop _ => .pop (fieldRd w)
  | .cmp _ _ => .cmp (fieldRm w) (fieldRn w)
  | .movImm _ _ => .movImm (fieldRd w) (fieldImm8 w)
  | .movReg _ _ => .movReg (fieldRd w) (fieldRm w)
  | .strImm _ _ => .strImm (fieldRm w) (fieldImm8 w)
  | .strReg _ _ => .strReg (fieldRm w) (fieldRn w)
  | .ldr _ _ => .ldr (fieldRd w) (fieldRm w)
  | .add _ _ _ => .add (fieldRd w) (fieldRm w) (fieldRn w)
  | .sub _ _ _ => .sub (fieldRd w) (fieldRm w) (fieldRn w)
  | .mul _ _ _ => .mul (fieldRd w) (fieldRm w) (fieldRn w)
  | .and _ _ _ => .and (fieldRd w) (fieldRm w) (fieldRn w)
  | .or _ _ _ => .or (fieldRd w) (fieldRm w) (fieldRn w)
  | .not _ _ => .not (fieldRd w) (fieldRm w)
  | .xor _ _ _ => .xor (fieldRd w) (fieldRm w) (fieldRn w)
  | .shr _ _ => .shr (fieldRd w) (fieldRm w)
  | .shl _ _ => .shl (fieldRd w) (fieldRm w)
  | .ror _ _ => .ror (fieldRd w) (fieldRm w)
  | .rol _ _ => .rol (fieldRd w) (fieldRm w)
  | .halt => .halt
  | .unimplemented _ => .unimplemented (w.extractLsb' 0 12)

/-- `w` has the match of `i`'s row under its mask (R89). -/
def Instr.Matches (i : Instr) (w : Word) : Prop := w &&& i.mask = i.matchBits

section
variable {i : Instr} {w : Word}

@[simp] theorem mask_withFieldsOf : (i.withFieldsOf w).mask = i.mask := by cases i <;> rfl

@[simp] theorem matchBits_withFieldsOf : (i.withFieldsOf w).matchBits = i.matchBits := by
  cases i <;> rfl

/-- The row of an instruction fixes its opcode. -/
theorem fieldOp_of_matches (h : i.Matches w) : fieldOp w = fieldOp i.matchBits := by
  have hmask : fieldOp i.mask = BitVec.allOnes 4 := by cases i <;> simp [Instr.mask]
  rw [← h, fieldOp_and, hmask, BitVec.and_allOnes]

/-- A row whose mask holds bit 11 fixes I. -/
theorem fieldI_of_matches (h : i.Matches w) (hmask : fieldI i.mask = true) :
    fieldI w = fieldI i.matchBits := by
  rw [← h, fieldI_and, hmask, Bool.and_true]

/-- A row whose mask holds bits 1 and 0 fixes the sub-operation. -/
theorem fieldLow2_of_matches (h : i.Matches w) (hmask : fieldLow2 i.mask = BitVec.allOnes 2) :
    fieldLow2 w = fieldLow2 i.matchBits := by
  rw [← h, fieldLow2_and, hmask, BitVec.and_allOnes]

/-- A word is in `i`'s row if its opcode, I and sub-operation are the row's, as far as the row's
mask holds them. -/
theorem matches_of_fields (hi : i ≠ .halt) (hop : fieldOp w = fieldOp i.matchBits)
    (hI : fieldI i.mask = true → fieldI w = fieldI i.matchBits)
    (hlow : fieldLow2 i.mask = BitVec.allOnes 2 → fieldLow2 w = fieldLow2 i.matchBits) :
    i.Matches w := by
  have hmatch : i.matchBits &&& i.mask = i.matchBits := by
    cases i <;> simp only [Instr.mask, Instr.matchBits] <;> decide
  have hmask : i.mask = 0xF803#16 ∨ i.mask = 0xF800#16 ∨ i.mask = 0xF000#16 := by
    cases i with
    | halt => exact absurd rfl hi
    | _ => simp [Instr.mask]
  have hopI : 0xF800#16 = 0xF000#16 ||| 0x0800#16 := by decide
  have hopIlow : 0xF803#16 = 0xF800#16 ||| 0x0003#16 := by decide
  rw [Instr.Matches, ← hmatch]
  rcases hmask with h | h | h
  · rw [h, hopIlow, hopI]
    simp only [BitVec.and_or_distrib_left, and_opMask, and_iMask, and_low2Mask, hop,
      hI (by simp [h]), hlow (by simp [h])]
  · rw [h, hopI]
    simp only [BitVec.and_or_distrib_left, and_opMask, and_iMask, hop, hI (by simp [h])]
  · rw [h, and_opMask, and_opMask, hop]

/-! ## The decoder answers the row that the word matches (R87 to R90) -/

theorem decodeByOp_of_matches (hw : w ≠ 0xFFFF#16) (h : i.Matches w) :
    decodeByOp w = i.withFieldsOf w := by
  cases i with
  | halt => exact absurd ((and_sentinel w).symm.trans h) hw
  | jmp | jeq | jlt | jgt =>
    simp [decodeByOp, decodeBranch, Instr.withFieldsOf, Instr.matchBits, fieldOp_of_matches h,
      fieldI_of_matches h (by simp [Instr.mask]), fieldLow2_of_matches h (by simp [Instr.mask])]
  | nop | push | pop | cmp =>
    simp [decodeByOp, decodeOpZero, Instr.withFieldsOf, Instr.matchBits, fieldOp_of_matches h,
      fieldI_of_matches h (by simp [Instr.mask]), fieldLow2_of_matches h (by simp [Instr.mask])]
  | movImm | movReg | strImm | strReg =>
    simp [decodeByOp, Instr.withFieldsOf, Instr.matchBits, fieldOp_of_matches h,
      fieldI_of_matches h (by simp [Instr.mask])]
  | ldr | add | sub | mul | and | or | not | xor | shr | shl | ror | rol | unimplemented =>
    simp [decodeByOp, Instr.withFieldsOf, Instr.matchBits, fieldOp_of_matches h]

theorem decodeWord_of_matches (hw : w ≠ 0xFFFF#16) (h : i.Matches w) :
    decodeWord w = i.withFieldsOf w := by
  rw [decodeWord, hw_haltWord, if_neg hw, decodeByOp_of_matches hw h]

/-- Along the decoder's branches: each answers a row with the opcode, I and low2 that it tested. -/
theorem decodeByOp_matches (w : Word) : (decodeByOp w).Matches w := by
  have hop : (fieldOp w).toNat < 16 := (fieldOp w).isLt
  have hlow : (fieldLow2 w).toNat < 4 := (fieldLow2 w).isLt
  unfold decodeByOp decodeBranch decodeOpZero
  repeat' split
  all_goals
    refine matches_of_fields Instr.noConfusion ?_ ?_ ?_
    · simp only [Instr.matchBits, fieldOp_ofNat, ← BitVec.toNat_inj, BitVec.toNat_ofNat]
      grind
    · simp_all [Instr.mask, Instr.matchBits]
    · simp only [Instr.mask, Instr.matchBits, fieldLow2_ofNat, ← BitVec.toNat_inj,
        BitVec.toNat_ofNat, BitVec.toNat_allOnes]
      grind

theorem decodeWord_matches (w : Word) : (decodeWord w).Matches w := by
  by_cases hw : w = 0xFFFF#16
  · rw [(decodeWord_eq_halt_iff w).2 hw, hw]
    rfl
  · rw [decodeWord, hw_haltWord, if_neg hw]
    exact decodeByOp_matches w

/-- The operands of a decoded word are the word's fields. -/
theorem withFieldsOf_decodeWord (w : Word) : (decodeWord w).withFieldsOf w = decodeWord w := by
  by_cases hw : w = 0xFFFF#16
  · rw [(decodeWord_eq_halt_iff w).2 hw]
    rfl
  · exact (decodeWord_of_matches hw (decodeWord_matches w)).symm

/-- R89, for every row: which words are decoded to it, with which operands. -/
theorem decodeWord_eq_withFieldsOf_iff (hw : w ≠ 0xFFFF#16) :
    decodeWord w = i.withFieldsOf w ↔ i.Matches w := by
  refine ⟨fun h => ?_, decodeWord_of_matches hw⟩
  have hm := decodeWord_matches w
  rwa [h, Instr.Matches, mask_withFieldsOf, matchBits_withFieldsOf] at hm

theorem matches_sentinel_iff_mask_eq : i.Matches 0xFFFF#16 ↔ i.mask = i.matchBits := by
  rw [Instr.Matches, BitVec.and_comm, and_sentinel]

/-- HALT and the unimplemented class are the rows that the sentinel matches. -/
theorem matches_sentinel_iff :
    i.Matches 0xFFFF#16 ↔ i = .halt ∨ ∃ low, i = .unimplemented low := by
  rw [matches_sentinel_iff_mask_eq]
  cases i <;> simp [Instr.mask, Instr.matchBits]

/-- R89 for the 24 rows that the sentinel does not match. -/
theorem decodeWord_eq_row_iff (w : Word) (i : Instr) (hi : i.mask ≠ i.matchBits := by decide) :
    decodeWord w = i.withFieldsOf w ↔ w &&& i.mask = i.matchBits := by
  by_cases hw : w = 0xFFFF#16
  · subst hw
    refine iff_of_false (fun h => hi ?_) (fun h => hi (matches_sentinel_iff_mask_eq.1 h))
    have hm := matches_sentinel_iff_mask_eq.1 (decodeWord_matches 0xFFFF#16)
    rwa [h, mask_withFieldsOf, matchBits_withFieldsOf] at hm
  · exact decodeWord_eq_withFieldsOf_iff hw

/-- R89 for the unimplemented class, which leaves out the sentinel (R90). -/
theorem decodeWord_eq_unimplemented_iff (w : Word) :
    decodeWord w = .unimplemented (w.extractLsb' 0 12) ↔
      w &&& 0xF000#16 = 0xF000#16 ∧ w ≠ 0xFFFF#16 := by
  by_cases hw : w = 0xFFFF#16
  · rw [(decodeWord_eq_halt_iff w).2 hw]
    exact iff_of_false Instr.noConfusion fun h => h.2 hw
  · rw [and_iff_left hw]
    exact decodeWord_eq_withFieldsOf_iff (i := .unimplemented 0) hw

/-! ## The encoder gives back the used bits (R86, R91) -/

/-- The row's own match bits and the bits of the operands that the row uses. -/
theorem encode_withFieldsOf_eq_or (i : Instr) (w : Word) :
    encode (i.withFieldsOf w) = i.matchBits ||| (w &&& (i.usedBits &&& ~~~i.mask)) := by
  cases i with
  | halt => simp [encode, Instr.withFieldsOf, Instr.mask, Instr.matchBits, Instr.usedBits]
  | jmp | jeq | jlt | jgt =>
    simp [Instr.withFieldsOf, encode, encodeBR_fieldDisp, Instr.mask, Instr.matchBits,
      Instr.usedBits]
  | nop | push | pop | cmp =>
    simp [Instr.withFieldsOf, encode, encodeR0_eq_or, ← BitVec.and_or_distrib_left,
      Instr.mask, Instr.matchBits, Instr.usedBits]
  | movImm =>
    simp [Instr.withFieldsOf, encode, encodeMI_fields, Instr.mask, Instr.matchBits, Instr.usedBits]
  | strImm =>
    simp [Instr.withFieldsOf, encode, encodeSI_fieldImm8, Instr.mask, Instr.matchBits,
      Instr.usedBits]
  | unimplemented =>
    simp [Instr.withFieldsOf, encode, atBit_low12, Instr.mask, Instr.matchBits, Instr.usedBits]
  | movReg | strReg | ldr | add | sub | mul | and | or | not | xor | shr | shl | ror | rol =>
    simp [Instr.withFieldsOf, encode, encodeR_eq_or, ← BitVec.and_or_distrib_left,
      Instr.mask, Instr.matchBits, Instr.usedBits]

/-- Encoding a row with the operands of a word of the row gives back the word's used bits. -/
theorem encode_withFieldsOf (h : i.Matches w) : encode (i.withFieldsOf w) = w &&& i.usedBits := by
  have hsub : i.mask ||| (i.usedBits &&& ~~~i.mask) = i.usedBits := by
    cases i <;> simp only [Instr.mask, Instr.usedBits] <;> decide
  rw [encode_withFieldsOf_eq_or, ← h, ← BitVec.and_or_distrib_left, hsub]

theorem encode_decodeWord (w : Word) :
    encode (decodeWord w) = w &&& (decodeWord w).usedBits := by
  have h := encode_withFieldsOf (decodeWord_matches w)
  rwa [withFieldsOf_decodeWord] at h

/-! ## A decoded word is well formed (R85) -/

theorem wf_withFieldsOf (hw : w ≠ 0xFFFF#16) (h : i.Matches w) :
    (i.withFieldsOf w).wf = true := by
  cases i with
  | strImm => exact decide_eq_true (fieldRm_eq_fieldImm8 w)
  | unimplemented low =>
    refine decide_eq_true fun hlow => hw ?_
    have hall := encode_withFieldsOf h
    rw [Instr.withFieldsOf, hlow] at hall
    rw [Instr.usedBits, and_sentinel] at hall
    rw [← hall]
    decide
  | _ => rfl

theorem wf_decodeWord (w : Word) : (decodeWord w).wf = true := by
  by_cases hw : w = 0xFFFF#16
  · rw [(decodeWord_eq_halt_iff w).2 hw]
    rfl
  · rw [← withFieldsOf_decodeWord]
    exact wf_withFieldsOf hw (decodeWord_matches w)

/-! ## A well-formed instruction is read back from its own word (R86, R87) -/

theorem withFieldsOf_encode (h : i.wf = true) : i.withFieldsOf (encode i) = i := by
  cases i with
  | strImm rm imm =>
    have hrm : rm = (imm.extractLsb' 5 3).toFin := of_decide_eq_true h
    simp only [Instr.withFieldsOf, encode, fieldRm_eq_fieldImm8, fieldImm8_encodeSI, ← hrm]
  | halt => rfl
  | unimplemented low =>
    simp [Instr.withFieldsOf, encode, BitVec.extractLsb'_or]
  | jmp | jeq | jlt | jgt | nop | push | pop | cmp | movImm | movReg | strReg | ldr | add | sub | mul
  | and | or | not | xor | shr | shl | ror | rol =>
    simp [Instr.withFieldsOf, encode]

/-- The architect's lemmas on the rows, put together. -/
theorem matches_encode (h : i.wf = true) : i.Matches (encode i) := by
  cases i
  exacts [Laws.MatchBits.jmp _ h, Laws.MatchBits.jeq _ h, Laws.MatchBits.jlt _ h,
    Laws.MatchBits.jgt _ h, Laws.MatchBits.nop h, Laws.MatchBits.push _ h, Laws.MatchBits.pop _ h,
    Laws.MatchBits.cmp _ _ h, Laws.MatchBits.movImm _ _ h, Laws.MatchBits.movReg _ _ h,
    Laws.MatchBits.strImm _ _ h, Laws.MatchBits.strReg _ _ h, Laws.MatchBits.ldr _ _ h,
    Laws.MatchBits.add _ _ _ h, Laws.MatchBits.sub _ _ _ h, Laws.MatchBits.mul _ _ _ h,
    Laws.MatchBits.and _ _ _ h, Laws.MatchBits.or _ _ _ h, Laws.MatchBits.not _ _ h,
    Laws.MatchBits.xor _ _ _ h, Laws.MatchBits.shr _ _ h, Laws.MatchBits.shl _ _ h,
    Laws.MatchBits.ror _ _ h, Laws.MatchBits.rol _ _ h, Laws.MatchBits.halt h,
    Laws.MatchBits.unimplemented _ h]

/-- HALT alone is encoded as the sentinel (R88). -/
theorem encode_ne_sentinel (h : i.wf = true) (hi : i ≠ .halt) : encode i ≠ 0xFFFF#16 := by
  intro hall
  have hm := matches_encode h
  have hread := withFieldsOf_encode h
  rw [hall] at hm hread
  rcases matches_sentinel_iff.1 hm with rfl | ⟨low, rfl⟩
  · exact hi rfl
  · exact of_decide_eq_true h (Instr.unimplemented.inj hread).symm

theorem decodeWord_encode (h : i.wf = true) : decodeWord (encode i) = i := by
  by_cases hi : i = .halt
  · subst hi
    decide
  · rw [decodeWord_of_matches (encode_ne_sentinel h hi) (matches_encode h), withFieldsOf_encode h]

/-- A word that agrees on the used bits with a word of the row is a word of the row. -/
theorem matches_of_used_eq {w' : Word} (h : w' &&& i.usedBits = w &&& i.usedBits)
    (hm : i.Matches w) : i.Matches w' := by
  have hsub : i.usedBits &&& i.mask = i.mask := by
    cases i <;> simp only [Instr.mask, Instr.usedBits] <;> decide
  rw [Instr.Matches, ← hsub, ← BitVec.and_assoc, h, BitVec.and_assoc, hsub, hm]

theorem decodeWord_eq_of_used_eq {w' : Word}
    (h : w' &&& (decodeWord w).usedBits = w &&& (decodeWord w).usedBits) :
    decodeWord w' = decodeWord w := by
  have hm : (decodeWord w).Matches w' := matches_of_used_eq h (decodeWord_matches w)
  by_cases hw' : w' = 0xFFFF#16
  · have hall : (decodeWord w).usedBits = 0xFFFF#16 := by
      rcases matches_sentinel_iff.1 (hw' ▸ hm) with hi | ⟨low, hi⟩ <;> rw [hi] <;> rfl
    rw [hall, and_sentinel, and_sentinel] at h
    rw [h]
  · have hrow := decodeWord_of_matches hw' hm
    have henc : encode (decodeWord w') = encode (decodeWord w) := by
      rw [hrow, encode_withFieldsOf hm, h, encode_decodeWord]
    rw [← decodeWord_encode (wf_decodeWord w'), henc, decodeWord_encode (wf_decodeWord w)]

/-! ## The displacement (R84) -/

theorem toInt_dispOperand (d : BitVec 9) : (dispOperand d).toInt = d.toInt :=
  BitVec.toInt_signExtend_of_le (by decide)

theorem toInt_fieldDisp (w : Word) : (fieldDisp w).toInt =
    ((fieldDisp w).toNat : Int) - (if w.getLsbD 10 then 512 else 0) := by
  have hsign : (fieldDisp w).msb = w.getLsbD 10 := by
    rw [BitVec.msb_eq_getLsbD_last, fieldDisp, BitVec.getLsbD_extractLsb']
    rfl
  rw [BitVec.toInt_eq_msb_cond, hsign]
  split <;> simp

end

end Sys2Proof

namespace Sys2Proof.Proofs

open Sys2Proof.Machine

/-- Settles O5: the decoder, run on each word. -/
theorem writtenWordsDecode : Obligations.WrittenWordsDecode := by
  unfold Obligations.WrittenWordsDecode
  decide

/-- Settles O6: `decodeWord_eq_row_iff` for each row of R89. -/
theorem maskAndMatchSelectInstruction : Obligations.MaskAndMatchSelectInstruction := by
  intro w
  exact ⟨decodeWord_eq_halt_iff w,
    decodeWord_eq_row_iff w (.jmp 0), decodeWord_eq_row_iff w (.jeq 0),
    decodeWord_eq_row_iff w (.jlt 0), decodeWord_eq_row_iff w (.jgt 0),
    decodeWord_eq_row_iff w .nop, decodeWord_eq_row_iff w (.push 0),
    decodeWord_eq_row_iff w (.pop 0), decodeWord_eq_row_iff w (.cmp 0 0),
    decodeWord_eq_row_iff w (.movImm 0 0), decodeWord_eq_row_iff w (.movReg 0 0),
    decodeWord_eq_row_iff w (.strImm 0 0), decodeWord_eq_row_iff w (.strReg 0 0),
    decodeWord_eq_row_iff w (.ldr 0 0), decodeWord_eq_row_iff w (.add 0 0 0),
    decodeWord_eq_row_iff w (.sub 0 0 0), decodeWord_eq_row_iff w (.mul 0 0 0),
    decodeWord_eq_row_iff w (.and 0 0 0), decodeWord_eq_row_iff w (.or 0 0 0),
    decodeWord_eq_row_iff w (.not 0 0), decodeWord_eq_row_iff w (.xor 0 0 0),
    decodeWord_eq_row_iff w (.shr 0 0), decodeWord_eq_row_iff w (.shl 0 0),
    decodeWord_eq_row_iff w (.ror 0 0), decodeWord_eq_row_iff w (.rol 0 0),
    decodeWord_eq_unimplemented_iff w⟩

/-- Settles O7: a decoded word has the word's own fields as operands, so it is well formed. -/
theorem everyWordDecodesWellFormed : Obligations.EveryWordDecodesWellFormed :=
  fun lo hi _ => ⟨decodeWord (wordOfBytes lo hi), rfl, wf_decodeWord _⟩

/-- Settles O8: an encoded instruction matches its own row, and its operands are read back. -/
theorem decodeOfEncodeIsInstruction : Obligations.DecodeOfEncodeIsInstruction := by
  intro i rest h
  have hword : decodeWord (wordOfBytes (lowByte (encode i)) (highByte (encode i))) = i := by
    rw [wordOfBytes_low_high, decodeWord_encode h]
  exact congrArg (fun j => Except.ok (j, rest)) hword

/-- Settles O9: the two words are in one row and are encoded alike, and encoding is undone by
decoding. -/
theorem ignoredBitsDoNotMatter : Obligations.IgnoredBitsDoNotMatter :=
  ⟨fun _ _ => decodeWord_eq_of_used_eq, encode_decodeWord⟩

/-- Settles O10: sign extension keeps the signed value of the nine bits. -/
theorem displacementIsSignedNineBits : Obligations.DisplacementIsSignedNineBits := by
  refine ⟨fun w => ?_, fun w => ?_, fun n hlo hhi cond => ⟨?_, ?_⟩⟩
  · rw [toInt_dispOperand, toInt_fieldDisp, fieldDisp]
  · rw [toInt_dispOperand]
    have hle := BitVec.le_toInt (fieldDisp w)
    have hlt := BitVec.toInt_lt (x := fieldDisp w)
    omega
  · have hdisp := fieldDisp_encodeBR (BitVec.ofInt 9 n) cond
    rw [fieldDisp] at hdisp
    rw [hdisp, BitVec.toNat_ofInt]
    omega
  · rw [toInt_dispOperand, fieldDisp_encodeBR]
    exact BitVec.toInt_ofInt_eq_self (by decide) (by omega) (by omega)

end Sys2Proof.Proofs
end

section
/-! # The engine's cycle (40_engine_cycle.md) -/

namespace Sys2Proof.Machine

/-! ## The engine's own operations, as equations of states -/

theorem advancePc_eq_ite (s : State) :
    advancePc s = if s.run = .running then s.setPc (s.pc + 2#16) else s := by
  rcases advancePc_cases s with ⟨hr, h⟩ | ⟨⟨r, hr⟩, h⟩ <;> simp [h, hr]

/-- The engine's +2 undoes a jump 2 back (41_branch.md R131). -/
theorem advancePc_setPc_sub_two {s : State} (h : s.run = .running) :
    advancePc (s.setPc (s.pc - 2#16)) = s := by
  rw [advancePc_eq_ite, if_pos (by simpa using h)]
  simp [State.setPc]

/-- The sentinel is no executed word: the engine adds nothing to pc after it (R113). -/
theorem advancePc_sentinelHalt (s : State) : advancePc (sentinelHalt s) = sentinelHalt s := rfl

/-- The sentinel halt writes ir itself, whatever the fetch has left there (R113). -/
theorem sentinelHalt_setIr (s : State) (w : Word) : sentinelHalt (s.setIr w) = sentinelHalt s := rfl

@[simp] theorem sentinelHalt_run (s : State) : (sentinelHalt s).run = .halted .sentinel := rfl

@[simp] theorem boundaryHalt_run (s : State) : (boundaryHalt s).run = .halted .boundary := rfl

theorem sentinelHalted_sentinelHalt (s : State) : SentinelHalted s (sentinelHalt s) :=
  ⟨rfl, rfl, rfl, rfl, fun r => sentinelHalt_getReg s r, rfl, rfl,
    fun sp a => sentinelHalt_byteAt s sp a⟩

/-! ## The step of the three words this chapter names -/

theorem step_of_sentinel {s : State} (hs : Fetches s) (hw : fetchWord s = 0xFFFF#16) :
    step s = .next (sentinelHalt s) := by
  have hexec : exec (decodeWord (fetchWord s)) (s.setIr (fetchWord s)) =
      .next (sentinelHalt s) := by
    rw [(decodeWord_eq_halt_iff _).2 hw, exec, execHalt, sentinelHalt_setIr]
  rw [step_of_exec hs hexec, advancePc_sentinelHalt]

/-- The words of the class 0xF are the words of the unimplemented instructions (30_encoding.md
R86, R90). -/
theorem encode_unimplemented (low : BitVec 12) :
    encode (.unimplemented low) = 0xF000#16 ||| low.zeroExtend 16 := by
  simp [encode, atBit]

/-- The info of an unimplemented word's record is the word (60_exceptions.md R259). -/
theorem encode_unimplemented_extractLsb' {w : Word} (hclass : w &&& 0xF000#16 = 0xF000#16)
    (hw : w ≠ 0xFFFF#16) : encode (.unimplemented (w.extractLsb' 0 12)) = w := by
  have h := encode_decodeWord w
  rw [(decodeWord_eq_unimplemented_iff w).2 ⟨hclass, hw⟩] at h
  rw [h]
  exact and_sentinel w

theorem step_of_unimplemented {s : State} (hs : Fetches s)
    (hclass : fetchWord s &&& 0xF000#16 = 0xF000#16) (hw : fetchWord s ≠ 0xFFFF#16) :
    step s = .next (advancePc
      (raise .unimplementedOpcode (fetchWord s) (s.setIr (fetchWord s)))) := by
  refine step_of_exec hs ?_
  rw [(decodeWord_eq_unimplemented_iff _).2 ⟨hclass, hw⟩, exec, execUnimplemented,
    encode_unimplemented_extractLsb' hclass hw]

/-- `JMP −2` jumps 2 back, and the engine's +2 brings pc back to the word (R120). -/
theorem step_of_jumpToItself {s : State} (hs : Fetches s) (hw : fetchWord s = 0x0FF8#16) :
    step s = .next (s.setIr 0x0FF8#16) := by
  have hdecode : decodeWord 0x0FF8#16 = .jmp (-2#9) := by decide
  have hjump : exec (decodeWord (fetchWord s)) (s.setIr (fetchWord s)) =
      .next ((s.setIr 0x0FF8#16).setPc (s.pc - 2#16)) := by
    rw [hw, hdecode, BitVec.sub_eq_add_neg]
    rfl
  have hback := advancePc_setPc_sub_two (s := s.setIr 0x0FF8#16) hs.1
  rw [step_of_exec hs hjump]
  exact congrArg Host.Outcome.next hback

/-! ## Runs that stay in one state -/

theorem run_of_step_self {s : State} (h : step s = .next s) (n : Nat) :
    Sys2Proof.core.run n s = .next s := by
  induction n with
  | zero => rfl
  | succ n ih => rw [core_run_succ_next n s s h, ih]

/-! ## The condition on the port of a step -/

/-- No step reports InvalidRegister, and PcBoundary is the condition of the boundary check alone
(60_exceptions.md R255, R260). -/
theorem transaction_report_cond {s : State} {c : Condition × Word}
    (h : (transaction s).report = some c) :
    c.1 ≠ .invalidRegister ∧ (c.1 = .pcBoundary ↔ 0x0800 ≤ s.pc.toNat) := by
  cases hr : s.run with
  | halted r =>
    rw [transaction_of_halted s r hr] at h
    cases h
  | running =>
    by_cases hp : 0x0800 ≤ s.pc.toNat
    · rw [transaction_of_outside s hr hp] at h
      cases h
      exact ⟨nofun, iff_of_true rfl hp⟩
    · rw [transaction_of_fetches s ⟨hr, Nat.lt_of_not_le hp⟩] at h
      obtain ⟨hinvalid, hboundary⟩ := conditionOf_reachable h
      exact ⟨hinvalid, iff_of_false hboundary hp⟩

end Sys2Proof.Machine

namespace Sys2Proof.Proofs

open Sys2Proof.Machine

/-- Settles O16: outside program memory the step is the boundary halt, 0xFFFF is the sentinel
halt, and any other word keeps the engine Running. -/
theorem onlySentinelAndBoundaryEndRun : Obligations.OnlySentinelAndBoundaryEndRun := by
  intro s t hr h r
  rcases Nat.lt_or_ge s.pc.toNat 0x0800 with hlt | hle
  · by_cases hw : fetchWord s = 0xFFFF#16
    · rw [step_of_sentinel ⟨hr, hlt⟩ hw] at h
      cases h
      simp [hlt, hw, eq_comm]
    · obtain ⟨u, hu, -, hrun, -⟩ := executedWordAdvancesPc s hr hlt hw
      rw [hu] at h
      cases h
      simp [hrun, hlt, hw]
  · rw [step_of_outside hr hle] at h
    cases h
    simp [hle, eq_comm]

/-- Settles O47: the record appended is that of the condition on the port. -/
theorem stepReportsAtMostOnce : Obligations.StepReportsAtMostOnce := by
  intro s t h
  have hreports := step_reports h
  cases hc : (transaction s).report with
  | none => exact .inl (by simpa [hc] using hreports)
  | some c =>
    obtain ⟨hinvalid, hboundary⟩ := transaction_report_cond hc
    rw [hc] at hreports
    exact .inr ⟨_, hreports, hinvalid, rfl, rfl, hboundary⟩

/-- Settles O11: the bytes at pc are those of the fetched word. -/
theorem stepRunsDecodedInstruction : Obligations.StepRunsDecodedInstruction := by
  intro s i hr hp hdecode _
  obtain rfl : decodeWord (fetchWord s) = i := by cases hdecode; rfl
  obtain ⟨u, hu⟩ := exec_next (decodeWord (fetchWord s)) (s.setIr (fetchWord s))
  have hfetch : s.wordAt .pm (s.pc.toNat / 2) = fetchWord s := rfl
  rw [step_of_exec ⟨hr, hp⟩ hu, hfetch, hu, advancePc_eq_ite]

/-- Settles O13: a step from Halted answers the same state. -/
theorem haltedStateIsFinal : Obligations.HaltedStateIsFinal :=
  fun _ _ n h => run_of_step_self (step_of_halted h) n

/-- Settles O14. -/
theorem boundaryHaltReportsAndStops : Obligations.BoundaryHaltReportsAndStops :=
  fun s hr hp => ⟨boundaryHalt s, step_of_outside hr hp, rfl, rfl, rfl, rfl,
    fun r => boundaryHalt_getReg s r, rfl, rfl, fun sp a => boundaryHalt_byteAt s sp a⟩

/-- Settles O15: HALT and the step that fetches its word are the same sentinel halt. -/
theorem sentinelHaltStops : Obligations.SentinelHaltStops :=
  ⟨fun s => ⟨_, rfl, sentinelHalted_sentinelHalt s⟩,
    fun s hr hp hw => ⟨_, step_of_sentinel ⟨hr, hp⟩ hw, sentinelHalted_sentinelHalt s⟩⟩

/-- Settles O17: the report is `raise`'s own, and the engine goes on by 2. -/
theorem unimplementedWordIsReported : Obligations.UnimplementedWordIsReported := by
  refine ⟨fun low s => ?_, fun s hr hp hclass hw => ?_⟩
  · rw [← encode_unimplemented]
    exact ⟨_, rfl, rfl, fun r => raise_getReg _ _ s r, rfl, rfl, rfl, rfl, rfl,
      fun sp a => raise_byteAt _ _ s sp a⟩
  · refine ⟨_, step_of_unimplemented ⟨hr, hp⟩ hclass hw, ?_⟩
    simp [SameRegs, SameMemory, advancePc_pc_of_running, hr]

/-- Settles O23: after the first step the state is one that a step answers again. -/
theorem jumpToItselfNeverHalts : Obligations.JumpToItselfNeverHalts := by
  intro s n hr hp hw
  have hfirst : step s = .next (s.setIr 0x0FF8#16) := step_of_jumpToItself ⟨hr, hp⟩ hw
  have hagain : step (s.setIr 0x0FF8#16) = .next (s.setIr 0x0FF8#16) :=
    step_of_jumpToItself (s := s.setIr 0x0FF8#16) ⟨hr, hp⟩ hw
  rw [core_run_succ_next n s _ hfirst, run_of_step_self hagain n]

end Sys2Proof.Proofs
end

section
/-! # Branches (41_branch.md)

Each flag test is said once as a relation of the flags, and once as a relation of the operands of
the compare before it; `branchIf` then gives the state. -/

namespace Sys2Proof.Machine

/-! ## The flag tests, as relations of the flags (R133 to R135) -/

theorem jeqTaken_iff (f : Flags) : jeqTaken f = true ↔ f.z = true := Iff.rfl

theorem jltTaken_neg_iff (f : Flags) : jltTaken .neg f = true ↔ f.n = true ∧ f.z = false := by
  simp [jltTaken]

theorem jltTaken_carry_iff (f : Flags) : jltTaken .carry f = true ↔ f.c = true ∧ f.z = false := by
  simp [jltTaken]

theorem jgtTaken_iff (f : Flags) : jgtTaken f = true ↔ f.c = false ∧ f.z = false := by
  simp [jgtTaken]

/-! ## A branch whose test is known (R131) -/

section
variable {taken : Bool} {p : Prop} [Decidable p]

theorem branchIf_eq_ite (h : taken = true ↔ p) (d : BitVec 9) (s : State) :
    branchIf taken d s = if p then s.setPc (s.pc + d.signExtend 16) else s := by
  rw [branchIf, dispOperand]
  exact if_congr h rfl rfl

theorem branchIf_pc (h : taken = true ↔ p) (d : BitVec 9) (s : State) :
    (branchIf taken d s).pc = if p then s.pc + d.signExtend 16 else s.pc := by
  rw [branchIf_eq_ite h, apply_ite State.pc, State.setPc_pc]

/-- A branch writes no register, no memory and no flag, and reports nothing (R130). -/
theorem onlySetsPc_of_branchIf {i : Instr} {d : BitVec 9} {s : State}
    (hexec : exec i s = .next (branchIf taken d s)) (h : taken = true ↔ p) :
    OnlySetsPc i (if p then s.pc + d.signExtend 16 else s.pc) s :=
  ⟨_, hexec, branchIf_pc h d s, fun r => branchIf_getReg _ _ s r, branchIf_flags _ _ s,
    branchIf_sp _ _ s, branchIf_ir _ _ s, branchIf_run _ _ s, branchIf_reports _ _ s,
    fun sp a => branchIf_byteAt _ _ s sp a⟩

end

/-! ## The flags of a subtraction, as relations of its operands (44_arith.md R190, R193) -/

theorem sign_iff (v : Word) : sign v = true ↔ 32768 ≤ v.toNat := by
  have hmsb : sign v = v.msb := (BitVec.msb_eq_getLsbD_last v).symm
  rw [hmsb, BitVec.msb_eq_decide, decide_eq_true_iff]

theorem aluSub_z_iff (a b : Word) : (aluSub a b).flags.z = true ↔ a = b := by
  simpa [aluSub, aluOut] using sub_eq_zero (a := a) (b := b)

theorem aluSub_c_iff (a b : Word) : (aluSub a b).flags.c = true ↔ b.toNat ≤ a.toNat := by
  simp [aluSub, aluOut]

theorem aluSub_n_iff (a b : Word) :
    (aluSub a b).flags.n = true ↔ 32768 ≤ ((a.toNat : Int) - b.toNat) % 65536 := by
  have hn : (aluSub a b).flags.n = sign (u16 ((a.toNat : Int) - b.toNat)) := rfl
  rw [hn, sign_iff, u16, BitVec.toNat_ofInt]
  omega

/-! ## The flag tests after a compare (R136) -/

theorem jeqTaken_aluSub_iff (a b : Word) : jeqTaken (aluSub a b).flags = true ↔ a = b :=
  aluSub_z_iff a b

/-- A negative difference is not zero, so Z decides nothing here. -/
theorem jltTaken_neg_aluSub_iff (a b : Word) :
    jltTaken .neg (aluSub a b).flags = true ↔ 32768 ≤ ((a.toNat : Int) - b.toNat) % 65536 := by
  rw [jltTaken_neg_iff, Bool.eq_false_iff, ne_eq, aluSub_n_iff, aluSub_z_iff]
  refine and_iff_left_of_imp fun hneg heq => ?_
  subst heq
  omega

theorem jltTaken_carry_aluSub_iff (a b : Word) :
    jltTaken .carry (aluSub a b).flags = true ↔ b.toNat < a.toNat := by
  rw [jltTaken_carry_iff, Bool.eq_false_iff, ne_eq, aluSub_c_iff, aluSub_z_iff,
    ← BitVec.toNat_inj]
  omega

/-- C is set where nothing is borrowed, so JGT is taken if the first operand is the smaller one
(90_conflicts.md C4). -/
theorem jgtTaken_aluSub_iff (a b : Word) :
    jgtTaken (aluSub a b).flags = true ↔ a.toNat < b.toNat := by
  rw [jgtTaken_iff, Bool.eq_false_iff, Bool.eq_false_iff, ne_eq, ne_eq, aluSub_c_iff,
    aluSub_z_iff, ← BitVec.toNat_inj]
  omega

end Sys2Proof.Machine

namespace Sys2Proof.Proofs

open Sys2Proof.Machine

/-- Settles O22: CMP keeps pc and leaves the flags of the subtraction, which decide each test. -/
theorem branchesDecideAfterCompare : Obligations.BranchesDecideAfterCompare := by
  intro rm rn d s a b target
  exact ⟨s.setFlags (aluSub a b).flags, rfl,
    ⟨_, rfl, rfl⟩,
    ⟨_, rfl, branchIf_pc (jeqTaken_aluSub_iff a b) d _⟩,
    ⟨_, rfl, branchIf_pc (jltTaken_neg_aluSub_iff a b) d _⟩,
    ⟨_, rfl, branchIf_pc (jltTaken_carry_aluSub_iff a b) d _⟩,
    ⟨_, rfl, branchIf_pc (jgtTaken_aluSub_iff a b) d _⟩⟩

/-- Settles O20: each meaning is a branch under its flag test. -/
theorem jmpJeqJgtSetPc : Obligations.JmpJeqJgtSetPc :=
  ⟨fun w => (decodeWord_eq_row_iff w (.jmp 0)).2,
    fun w => (decodeWord_eq_row_iff w (.jeq 0)).2,
    fun w => (decodeWord_eq_row_iff w (.jgt 0)).2,
    fun _ _ => onlySetsPc_of_branchIf (p := True) rfl (iff_of_true rfl trivial),
    fun _ s => onlySetsPc_of_branchIf rfl (jeqTaken_iff s.flags),
    fun _ s => onlySetsPc_of_branchIf rfl (jgtTaken_iff s.flags)⟩

/-- Settles O21: this hardware's JLT is the one under NEG. -/
theorem jltSetsPcUnderItsParameter : Obligations.JltSetsPcUnderItsParameter :=
  ⟨fun _ s => onlySetsPc_of_branchIf rfl (jltTaken_neg_iff s.flags),
    fun _ _ => rfl,
    fun d s => congrArg Host.Outcome.next (branchIf_eq_ite (jltTaken_carry_iff s.flags) d s)⟩

end Sys2Proof.Proofs
end

section
/-! # NOP, PUSH, POP and CMP (42_opcode0_stack_cmp.md)

Each access to the stack is one equation of states under its own bounds check; the law of PUSH and
POP is their composition. -/

namespace Sys2Proof.Machine

/-! ## The stack accesses, each under its bounds check (R151, R152) -/

section
variable {s : State}

theorem pushWord_of_room (h : 0x8102 ≤ s.sp.toNat) (v : Word) :
    pushWord v s = (s.setStackWord s.sp v).setSp (s.sp - 2#16) := by
  rcases pushWord_cases v s with ⟨-, e⟩ | ⟨hlt, -⟩
  · exact e
  · omega

theorem pushWord_of_full (h : s.sp.toNat < 0x8102) (v : Word) :
    pushWord v s = raise .stackOverflow s.sp s := by
  rcases pushWord_cases v s with ⟨hle, -⟩ | ⟨-, e⟩
  · omega
  · exact e

theorem popWord_of_live (h : s.sp.toNat ≤ 0x81FE) (rd : RegIdx) :
    popWord rd s = (s.setSp (s.sp + 2#16)).setReg rd (s.stackWord (s.sp + 2#16)) := by
  rcases popWord_cases rd s with ⟨-, e⟩ | ⟨hlt, -⟩
  · exact e
  · omega

theorem popWord_of_empty (h : 0x81FE < s.sp.toNat) (rd : RegIdx) :
    popWord rd s = raise .stackUnderflow s.sp s := by
  rcases popWord_cases rd s with ⟨hle, -⟩ | ⟨-, e⟩
  · omega
  · exact e

/-- POP takes back what PUSH has stored: rd and the freed word of the stack store are all that is
left of the two (R153). -/
theorem popWord_pushWord (hroom : 0x8102 ≤ s.sp.toNat) (htop : s.sp.toNat ≤ 0x8200) (rd : RegIdx)
    (v : Word) : popWord rd (pushWord v s) = (s.setStackWord s.sp v).setReg rd v := by
  have hlive : (s.sp - 2#16).toNat ≤ 0x81FE := by bv_omega
  have hword : (s.setStackWord s.sp v).stackWord s.sp = v := State.setWordAt_wordAt_same _ _ _ _
  rw [pushWord_of_room hroom, popWord_of_live hlive, State.setSp_sp, BitVec.sub_add_cancel]
  exact congrArg ((s.setStackWord s.sp v).setReg rd) hword

/-- A `raise` that an instruction comes to is all that it does (60_exceptions.md R253). -/
theorem onlyReports_of_raise {i : Instr} {c : Condition} {info : Word}
    (h : exec i s = .next (raise c info s)) : OnlyReports i c info s :=
  ⟨_, h, raise_reports c info s, fun r => raise_getReg c info s r, rfl, rfl, rfl, rfl, rfl,
    fun sp a => raise_byteAt c info s sp a⟩

/-! ## The step of a word that is NOP (R150) -/

theorem step_of_nop (hs : Fetches s) (hw : decodeWord (fetchWord s) = .nop) :
    step s = .next ((s.setIr (fetchWord s)).setPc (s.pc + 2#16)) := by
  have hexec : exec (decodeWord (fetchWord s)) (s.setIr (fetchWord s)) =
      .next (s.setIr (fetchWord s)) := by rw [hw, exec, execNop]
  rw [step_of_exec hs hexec, advancePc_eq_ite, State.setIr_run, if_pos hs.1, State.setIr_pc]

end

/-! ## The flags as relations of the result (44_arith.md R190, R193) -/

theorem sign_eq_msb (v : Word) : sign v = v.msb := (BitVec.msb_eq_getLsbD_last v).symm

theorem aluOut_z_iff (r : Word) (c v : Bool) : (aluOut r c v).flags.z = true ↔ r = 0x0000#16 :=
  decide_eq_true_iff

theorem aluOut_n_iff (r : Word) (c v : Bool) : (aluOut r c v).flags.n = true ↔ r.msb = true := by
  rw [← sign_eq_msb]
  rfl

theorem aluSub_v_iff (a b : Word) :
    (aluSub a b).flags.v = true ↔ a.msb ≠ b.msb ∧ (aluSub a b).result.msb ≠ a.msb := by
  simp only [← sign_eq_msb, ← bne_iff_ne, ← Bool.and_eq_true]
  rfl

end Sys2Proof.Machine

namespace Sys2Proof.Proofs

open Sys2Proof.Machine

/-- Settles O27: together the two accesses write rd and the word of the stack store at sp alone. -/
theorem popAfterPushReturnsValue : Obligations.PopAfterPushReturnsValue := by
  intro rn rd s hroom htop
  refine ⟨_, _, rfl, rfl, ?_⟩
  rw [popWord_pushWord hroom htop]
  refine ⟨State.setReg_getReg_same _ _ _, fun r hr => ?_, ?_⟩
  · rw [State.setReg_getReg_other _ _ _ _ hr, State.setStackWord, State.setWordAt_getReg]
  · simp [SameControl, State.setStackWord]

/-- Settles O24. -/
theorem nopChangesNothing : Obligations.NopChangesNothing :=
  have hdecode (w : Word) : w &&& 0xF803#16 = 0x0000#16 → decodeWord w = .nop :=
    (decodeWord_eq_row_iff w .nop).2
  ⟨hdecode, fun _ => rfl, fun _ hr hp hw => step_of_nop ⟨hr, hp⟩ (hdecode _ hw)⟩

/-- Settles O25: with room the access is a store at the old sp, and without it a report. -/
theorem pushStoresThenMovesDown : Obligations.PushStoresThenMovesDown := by
  refine ⟨fun rn s hroom => ?_, fun rn s hfull => ?_⟩
  · have hsp : (s.sp - 2#16).toNat = s.sp.toNat - 2 := by bv_omega
    refine ⟨_, congrArg Host.Outcome.next (pushWord_of_room hroom (s.getReg rn)), hsp,
      stackIndex_of_le _ (by omega), ?_, fun sp a hne => ?_, ?_⟩
    · rw [State.setSp_wordAt, State.setStackWord, State.setWordAt_wordAt_same]
    · rw [State.setSp_byteAt, State.setStackWord, State.setWordAt_byteAt_other _ _ _ _ _ _ hne]
    · simp [SameRegs, SameControl, State.setStackWord]
  · exact onlyReports_of_raise (congrArg Host.Outcome.next (pushWord_of_full hfull (s.getReg rn)))

/-- Settles O26: with a live word the access loads rd from the new sp, and without one it is a
report. -/
theorem popMovesUpThenLoads : Obligations.PopMovesUpThenLoads := by
  refine ⟨fun rd s hlive => ?_, fun rd s hempty => ?_⟩
  · have hsp : (s.sp + 2#16).toNat = s.sp.toNat + 2 := by bv_omega
    refine ⟨_, congrArg Host.Outcome.next (popWord_of_live hlive rd), hsp,
      State.setReg_getReg_same _ _ _, fun r hr => ?_, ?_⟩
    · rw [State.setReg_getReg_other _ _ _ _ hr, State.setSp_getReg]
    · simp [SameControl, SameMemory]
  · exact onlyReports_of_raise (congrArg Host.Outcome.next (popWord_of_empty hempty rd))

/-- Settles O29: CMP writes the flags of the subtraction and nothing else. -/
theorem cmpSetsFlagsOnly : Obligations.CmpSetsFlagsOnly := by
  refine ⟨fun w => (decodeWord_eq_row_iff w (.cmp 0 0)).2, ?_⟩
  intro rm rn s a b r
  exact ⟨s.setFlags (aluSub a b).flags, rfl, aluOut_z_iff r _ _, aluOut_n_iff r _ _,
    aluSub_c_iff a b, aluSub_v_iff a b, fun q => State.setFlags_getReg s _ q, rfl,
    ⟨rfl, rfl, rfl, rfl⟩, fun sp k => State.setFlags_byteAt s _ sp k⟩

end Sys2Proof.Proofs
end

section
/-! # MOV, STR and LDR (43_move_memory.md)

Each access to data memory is one equation of states under its own bounds check; what a register
write and a data word write leave unchanged is said once for every instruction that comes to one. -/

namespace Sys2Proof.Machine

section
variable {s : State} {a : Word}

/-! ## The data accesses, each under its bounds check (R172 to R174; 20_memory.md R55) -/

theorem storeData_of_lt (h : a.toNat < 256) (v : Word) :
    storeData a v s = s.setWordAt .dm a.toNat v := by
  rcases storeData_cases a v s with ⟨-, e⟩ | ⟨hle, -⟩
  · exact e
  · omega

theorem storeData_of_ge (h : 256 ≤ a.toNat) (v : Word) :
    storeData a v s = raise .dataAddressRange a s := by
  rcases storeData_cases a v s with ⟨hlt, -⟩ | ⟨-, e⟩
  · omega
  · exact e

theorem loadData_of_lt (h : a.toNat < 256) (rd : RegIdx) :
    loadData rd a s = s.setReg rd (s.wordAt .dm a.toNat) := by
  rcases loadData_cases rd a s with ⟨-, e⟩ | ⟨hle, -⟩
  · exact e
  · omega

theorem loadData_of_ge (h : 256 ≤ a.toNat) (rd : RegIdx) :
    loadData rd a s = raise .dataAddressRange a s := by
  rcases loadData_cases rd a s with ⟨hlt, -⟩ | ⟨-, e⟩
  · omega
  · exact e

/-! ## An instruction that comes to one write, or to one access -/

variable {i : Instr} {rd : RegIdx} {v : Word}

theorem onlyWritesReg_of_setReg (h : exec i s = .next (s.setReg rd v)) : OnlyWritesReg i rd v s :=
  ⟨_, h, State.setReg_getReg_same s rd v, fun q hq => State.setReg_getReg_other s rd q v hq,
    rfl, rfl, ⟨rfl, rfl, rfl, rfl⟩, fun sp k => State.setReg_byteAt s rd v sp k⟩

theorem onlyWritesData_of_setWordAt {k : Nat} (h : exec i s = .next (s.setWordAt .dm k v)) :
    OnlyWritesData i k v s :=
  ⟨_, h, State.setWordAt_wordAt_same s .dm k v,
    fun sp' b hb => State.setWordAt_byteAt_other s .dm sp' k b v hb,
    fun q => State.setWordAt_getReg s .dm k v q, rfl, rfl, ⟨rfl, rfl, rfl, rfl⟩⟩

theorem onlyWritesData_of_storeData (h : exec i s = .next (storeData a v s))
    (ha : a.toNat < 256) : OnlyWritesData i a.toNat v s :=
  onlyWritesData_of_setWordAt (storeData_of_lt ha v ▸ h)

theorem onlyReports_of_storeData (h : exec i s = .next (storeData a v s))
    (ha : 256 ≤ a.toNat) : OnlyReports i .dataAddressRange a s :=
  onlyReports_of_raise (storeData_of_ge ha v ▸ h)

end

end Sys2Proof.Machine

namespace Sys2Proof.Proofs

open Sys2Proof.Machine

/-- Settles O30: both forms are one register write; the immediate is its own number (R83). -/
theorem movWritesRegister : Obligations.MovWritesRegister := by
  refine ⟨fun w => (decodeWord_eq_row_iff w (.movImm 0 0)).2,
    fun w => (decodeWord_eq_row_iff w (.movReg 0 0)).2, fun rd imm s => ?_,
    fun rd rm s => onlyWritesReg_of_setReg rfl⟩
  rw [← immOperand_eq_ofNat]
  exact onlyWritesReg_of_setReg rfl

/-- Settles O31: the access is a store of the immediate, or a report. -/
theorem strImmWritesOneDataWord : Obligations.StrImmWritesOneDataWord := by
  refine ⟨fun w => (decodeWord_eq_row_iff w (.strImm 0 0)).2, fun rm imm s hlt => ?_,
    fun rm imm s hge => onlyReports_of_storeData (v := immOperand imm) rfl hge⟩
  rw [← immOperand_eq_ofNat]
  exact onlyWritesData_of_storeData rfl hlt

/-- Settles O32: the access is a store of Rn's value, or a report. -/
theorem strRegWritesOneDataWord : Obligations.StrRegWritesOneDataWord :=
  ⟨fun w => (decodeWord_eq_row_iff w (.strReg 0 0)).2,
    fun _ _ _ hlt => onlyWritesData_of_storeData rfl hlt,
    fun _ rn s hge => onlyReports_of_storeData (v := s.getReg rn) rfl hge⟩

/-- Settles O33: in range the access is a register write, rd = rm included, since the address is
read before; out of range it is a report. -/
theorem ldrReadsOneDataWord : Obligations.LdrReadsOneDataWord :=
  ⟨fun w => (decodeWord_eq_row_iff w (.ldr 0 0)).2,
    fun rd _ _ hlt => onlyWritesReg_of_setReg (congrArg Host.Outcome.next (loadData_of_lt hlt rd)),
    fun rd _ _ hge => onlyReports_of_raise (congrArg Host.Outcome.next (loadData_of_ge hge rd))⟩

end Sys2Proof.Proofs
end

section
/-! # ADD, SUB and MUL, and the laws of their flags (44_arith.md)

Each operation of the ALU is said once as `aluOut` of its result, C and V, and V of ADD and SUB as
the library's signed overflow; the flags are then relations of the operands. -/

namespace Sys2Proof.Machine

section
variable (a b : Word)

/-! ## The operations, in terms of their operands (R192 to R194) -/

theorem aluAdd_eq :
    aluAdd a b = aluOut (BitVec.ofNat 16 (a.toNat + b.toNat)) (decide (0xFFFF < a.toNat + b.toNat))
      (a.msb == b.msb && (BitVec.ofNat 16 (a.toNat + b.toNat)).msb != a.msb) := by
  simp only [aluAdd, u16_natCast, sign_eq_msb, gt_iff_lt]

theorem aluSub_eq :
    aluSub a b = aluOut (BitVec.ofInt 16 ((a.toNat : Int) - b.toNat)) (decide (b.toNat ≤ a.toNat))
      (a.msb != b.msb && (BitVec.ofInt 16 ((a.toNat : Int) - b.toNat)).msb != a.msb) := by
  simp only [aluSub, u16, sign_eq_msb, ge_iff_le]

theorem aluMul_eq :
    aluMul a b = aluOut (BitVec.ofNat 16 (a.toNat * b.toNat))
      (decide (0xFFFF < a.toNat * b.toNat)) (decide (0xFFFF < a.toNat * b.toNat)) := by
  simp only [aluMul, u16_natCast, gt_iff_lt]

/-! ## Carry and zero of an addition (R192, R196) -/

theorem aluAdd_c_iff : (aluAdd a b).flags.c = true ↔ 0xFFFF < a.toNat + b.toNat :=
  decide_eq_true_iff

theorem aluAdd_z_iff : (aluAdd a b).flags.z = true ↔ (a.toNat + b.toNat) % 65536 = 0 := by
  rw [aluAdd_eq, aluOut_z_iff, ← BitVec.toNat_inj, BitVec.toNat_ofNat, BitVec.toNat_ofNat,
    Nat.zero_mod]

/-! ## V is signed overflow (R192, R193, R195) -/

/-- The signs the rule compares are those that decide signed overflow of a sum. -/
theorem aluAdd_v_eq_saddOverflow : (aluAdd a b).flags.v = a.saddOverflow b := by
  simp only [BitVec.saddOverflow_eq, aluAdd, u16_add_cast, sign_eq_msb]
  rfl

/-- The signs the rule compares are those that decide signed overflow of a difference. -/
theorem aluSub_v_eq_ssubOverflow : (aluSub a b).flags.v = a.ssubOverflow b := by
  simp only [BitVec.ssubOverflow_eq, aluSub, u16_sub, sign_eq_msb, aluOut]
  cases a.msb <;> simp

theorem aluAdd_v_iff :
    (aluAdd a b).flags.v = true ↔ a.toInt + b.toInt < -32768 ∨ 32767 < a.toInt + b.toInt := by
  rw [aluAdd_v_eq_saddOverflow, BitVec.saddOverflow, Bool.or_eq_true, decide_eq_true_iff,
    decide_eq_true_iff]
  omega

/-- `aluSub_v_iff` in terms of the operands' signed values. -/
theorem aluSub_v_iff_toInt :
    (aluSub a b).flags.v = true ↔ a.toInt - b.toInt < -32768 ∨ 32767 < a.toInt - b.toInt := by
  rw [aluSub_v_eq_ssubOverflow, BitVec.ssubOverflow, Bool.or_eq_true, decide_eq_true_iff,
    decide_eq_true_iff]
  omega

end

/-! ## An instruction that comes to an ALU write-back (R190, R191) -/

/-- The write-back is all that the instruction does, and Z and N are those of the result. -/
theorem writesAlu_of_writeAlu {i : Instr} {rd : RegIdx} {r : Word} {c v : Bool} {s : State}
    (h : exec i s = .next (writeAlu rd (aluOut r c v) s)) : WritesAlu i rd r c v s := by
  have hz : (aluOut r c v).flags.z = true ↔ r.toNat = 0 := by
    rw [aluOut_z_iff, ← BitVec.toNat_inj, BitVec.toNat_ofNat, Nat.zero_mod]
  exact ⟨_, h, writeAlu_getReg_same rd _ s, hz, sign_iff r, rfl, rfl,
    fun q hq => writeAlu_getReg_other rd q _ s hq, rfl, ⟨rfl, rfl, rfl, rfl⟩,
    fun sp k => writeAlu_byteAt rd _ s sp k⟩

end Sys2Proof.Machine

namespace Sys2Proof.Proofs

open Sys2Proof.Machine

/-- Settles O36: each state holds the flags of one ALU operation on the old operands. -/
theorem carryZeroNegativeLaws : Obligations.CarryZeroNegativeLaws := by
  intro rd rm rn s
  exact ⟨⟨_, rfl, aluAdd_c_iff _ _, aluAdd_z_iff _ _⟩,
    ⟨_, rfl, aluSub_c_iff _ _, aluSub_n_iff _ _⟩,
    ⟨_, rfl, aluSub_c_iff _ _, aluSub_n_iff _ _⟩⟩

/-- Settles O37: CMP's V is that of the same difference as SUB's. -/
theorem overflowFlagIsSignedOverflow : Obligations.OverflowFlagIsSignedOverflow := by
  intro rd rm rn s
  exact ⟨⟨_, rfl, aluAdd_v_iff _ _⟩, ⟨_, rfl, aluSub_v_iff_toInt _ _⟩,
    ⟨_, rfl, aluSub_v_iff_toInt _ _⟩⟩

/-- Settles O35: each is one write-back of an ALU operation on the old operands. -/
theorem addSubMulWriteResultAndFlags : Obligations.AddSubMulWriteResultAndFlags := by
  refine ⟨fun rd rm rn s => writesAlu_of_writeAlu ?_, fun rd rm rn s => writesAlu_of_writeAlu ?_,
    fun rd rm rn s => writesAlu_of_writeAlu ?_⟩
  · rw [exec, execAdd, aluAdd_eq]
  · rw [exec, execSub, aluSub_eq]
  · rw [exec, execMul, aluMul_eq]

end Sys2Proof.Proofs
end

section
/-! # AND, OR, NOT and XOR (45_logic.md)

AND, OR and XOR are the word's own operations; NOT is said once more as R212's subtraction. -/

namespace Sys2Proof.Machine

/-- The complement is what is left of 0xFFFF: no bit of the subtraction borrows (R212). -/
theorem aluNot_eq (a : Word) : aluNot a = aluOut (0xFFFF#16 - a) false false :=
  congrArg (aluOut · false false) (BitVec.allOnes_sub_eq_not a).symm

end Sys2Proof.Machine

namespace Sys2Proof.Proofs

open Sys2Proof.Machine

/-- Settles O38: the words are the instructions' rows, and each meaning is one ALU write-back with
C and V clear. -/
theorem logicWritesResultClearsCarry : Obligations.LogicWritesResultClearsCarry := by
  refine ⟨fun w =>
      ⟨(decodeWord_eq_row_iff w (.and 0 0 0)).2, (decodeWord_eq_row_iff w (.or 0 0 0)).2,
        (decodeWord_eq_row_iff w (.not 0 0)).2, (decodeWord_eq_row_iff w (.xor 0 0 0)).2⟩,
    fun rd rm rn s => ⟨?and, ?or, ?not, ?xor⟩⟩
  case and | or | xor => exact writesAlu_of_writeAlu rfl
  case not => exact writesAlu_of_writeAlu (by rw [exec, execNot, aluNot_eq])

end Sys2Proof.Proofs
end

section
/-! # SHR, SHL, ROR and ROL (46_shift_rotate.md)

Each operation of the ALU is said once as `aluOut` of a number: halving or doubling the operand, and
for a rotate putting the bit that leaves into the place that falls free. That the rotates undo each
other is then arithmetic; that sixteen of them come round is where each bit goes. -/

namespace Sys2Proof.Machine

section
variable (a : Word)

/-! ## The bit that leaves the operand -/

theorem toNat_lsb : (a.getLsbD 0).toNat = a.toNat % 2 := by
  rw [BitVec.getLsbD, Nat.toNat_testBit, pow_zero, Nat.div_one]

theorem toNat_msb : (a.getLsbD 15).toNat = a.toNat / 32768 := by
  rw [BitVec.getLsbD, Nat.toNat_testBit]
  omega

theorem lsb_eq_decide : a.getLsbD 0 = decide (a.toNat % 2 = 1) := Nat.testBit_zero a.toNat

theorem msb_eq_decide : a.getLsbD 15 = decide (32768 ≤ a.toNat) :=
  Bool.eq_iff_iff.2 ((sign_iff a).trans decide_eq_true_iff.symm)

/-! ## The operations, in terms of their operand (R230 to R233) -/

theorem toNat_shiftLeft_one : (a <<< 1).toNat = 2 * (a.toNat % 32768) := by
  rw [BitVec.toNat_shiftLeft, Nat.shiftLeft_eq]
  omega

theorem toNat_ushiftRight_one : (a >>> 1).toNat = a.toNat / 2 := Nat.shiftRight_eq_div_pow a.toNat 1

theorem aluShr_eq :
    aluShr a = aluOut (BitVec.ofNat 16 (a.toNat / 2)) (decide (a.toNat % 2 = 1)) false := by
  have hresult : a >>> 1 = BitVec.ofNat 16 (a.toNat / 2) :=
    BitVec.eq_of_toNat_eq (by rw [toNat_ushiftRight_one, BitVec.toNat_ofNat]; omega)
  rw [aluShr, hresult, lsb_eq_decide]

theorem aluShl_eq :
    aluShl a = aluOut (BitVec.ofNat 16 (2 * a.toNat)) (decide (32768 ≤ a.toNat)) false := by
  have hresult : a <<< 1 = BitVec.ofNat 16 (2 * a.toNat) :=
    BitVec.eq_of_toNat_eq (by rw [toNat_shiftLeft_one, BitVec.toNat_ofNat]; omega)
  rw [aluShl, hresult, msb_eq_decide]

/-- The bit that leaves comes back as bit 15, which the shift has cleared. -/
theorem aluRor_toNat : (aluRor a).result.toNat = a.toNat / 2 + 32768 * (a.toNat % 2) := by
  have hbit : ((BitVec.ofBool (a.getLsbD 0)).zeroExtend 16 <<< 15).toNat
      = 2 ^ 15 * (a.toNat % 2) := by
    rw [BitVec.toNat_shiftLeft, BitVec.toNat_setWidth, BitVec.toNat_ofBool, toNat_lsb,
      Nat.shiftLeft_eq]
    omega
  calc (aluRor a).result.toNat = a.toNat / 2 ||| 2 ^ 15 * (a.toNat % 2) := by
        rw [aluRor, aluOut, BitVec.toNat_or, hbit, toNat_ushiftRight_one]
    _ = 2 ^ 15 * (a.toNat % 2) + a.toNat / 2 := by
        rw [Nat.or_comm, Nat.two_pow_add_eq_or_of_lt (by omega)]
    _ = a.toNat / 2 + 32768 * (a.toNat % 2) := Nat.add_comm _ _

/-- The bit that leaves comes back as bit 0, which the shift has cleared. -/
theorem aluRol_toNat : (aluRol a).result.toNat = 2 * a.toNat % 65536 + a.toNat / 32768 := by
  have hbit : ((BitVec.ofBool (a.getLsbD 15)).zeroExtend 16).toNat = a.toNat / 32768 := by
    rw [BitVec.toNat_setWidth, BitVec.toNat_ofBool, toNat_msb]
    omega
  calc (aluRol a).result.toNat = 2 ^ 1 * (a.toNat % 32768) ||| a.toNat / 32768 := by
        rw [aluRol, aluOut, BitVec.toNat_or, hbit, toNat_shiftLeft_one, pow_one]
    _ = 2 ^ 1 * (a.toNat % 32768) + a.toNat / 32768 := by
        rw [Nat.two_pow_add_eq_or_of_lt (by omega)]
    _ = 2 * a.toNat % 65536 + a.toNat / 32768 := by omega

theorem aluRor_eq :
    aluRor a = aluOut (BitVec.ofNat 16 (a.toNat / 2 + 32768 * (a.toNat % 2)))
      (decide (a.toNat % 2 = 1)) false := by
  rw [← aluRor_toNat, BitVec.ofNat_toNat, BitVec.setWidth_eq, ← lsb_eq_decide]
  rfl

theorem aluRol_eq :
    aluRol a = aluOut (BitVec.ofNat 16 (2 * a.toNat % 65536 + a.toNat / 32768))
      (decide (32768 ≤ a.toNat)) false := by
  rw [← aluRol_toNat, BitVec.ofNat_toNat, BitVec.setWidth_eq, ← msb_eq_decide]
  rfl

/-! ## The rotates undo each other and come round (R234) -/

theorem aluRor_aluRol : (aluRor (aluRol a).result).result = a := by
  have hlow : (2 * a.toNat % 65536 + a.toNat / 32768) % 2 = a.toNat / 32768 := by omega
  have hrest : (2 * a.toNat % 65536 + a.toNat / 32768) / 2 = a.toNat % 32768 := by omega
  apply BitVec.eq_of_toNat_eq
  rw [aluRor_toNat, aluRol_toNat, hlow, hrest]
  exact Nat.mod_add_div _ _

theorem aluRol_aluRor : (aluRol (aluRor a).result).result = a := by
  have hhigh : (a.toNat / 2 + 32768 * (a.toNat % 2)) / 32768 = a.toNat % 2 := by omega
  have hrest : 2 * (a.toNat / 2 + 32768 * (a.toNat % 2)) % 65536 = 2 * (a.toNat / 2) := by omega
  apply BitVec.eq_of_toNat_eq
  rw [aluRol_toNat, aluRor_toNat, hhigh, hrest]
  exact Nat.div_add_mod _ _

/-- ROL takes bit `i` from the place below, and bit 0 from bit 15. -/
theorem aluRol_getLsbD {i : Nat} (hi : i < 16) :
    (aluRol a).result.getLsbD i = a.getLsbD ((i + 15) % 16) := by
  simp only [aluRol, aluOut, BitVec.getLsbD_or, BitVec.getLsbD_shiftLeft, BitVec.getLsbD_setWidth,
    BitVec.getLsbD_ofBool]
  cases i with
  | zero => simp
  | succ k => simp [hi, show (k + 1 + 15) % 16 = k by omega]

/-- `n` rotations to the left take bit `i` from `n` places below, counted round the word. -/
theorem aluRol_iterate_getLsbD (n : Nat) {i : Nat} (hi : i < 16) :
    ((fun x => (aluRol x).result)^[n] a).getLsbD i = a.getLsbD ((i + 15 * n) % 16) := by
  induction n generalizing i with
  | zero => rw [Function.iterate_zero_apply, Nat.mul_zero, Nat.add_zero, Nat.mod_eq_of_lt hi]
  | succ n ih =>
    have hplace : ((i + 15) % 16 + 15 * n) % 16 = (i + 15 * (n + 1)) % 16 := by omega
    rw [Function.iterate_succ_apply', aluRol_getLsbD _ hi, ih (Nat.mod_lt _ (by decide)), hplace]

theorem aluRol_iterate_sixteen : (fun x => (aluRol x).result)^[16] a = a := by
  apply BitVec.eq_of_getLsbD_eq
  intro i hi
  rw [aluRol_iterate_getLsbD a 16 hi, Nat.add_mul_mod_self_right, Nat.mod_eq_of_lt hi]

/-- Sixteen rotations to the right undo sixteen to the left, which change nothing. -/
theorem aluRor_iterate_sixteen : (fun x => (aluRor x).result)^[16] a = a := by
  have hinv : Function.LeftInverse (fun x => (aluRor x).result) (fun x => (aluRol x).result) :=
    aluRor_aluRol
  have hundo := hinv.iterate 16 a
  rwa [aluRol_iterate_sixteen] at hundo

end

/-- A second ALU write-back to `rd` that reads `rd` works on the result of the first. -/
theorem writeAlu_writeAlu_getReg (rd : RegIdx) (o : AluOut) (f : Word → AluOut) (s : State) :
    (writeAlu rd (f ((writeAlu rd o s).getReg rd)) (writeAlu rd o s)).getReg rd
      = (f o.result).result := by
  rw [writeAlu_getReg_same, writeAlu_getReg_same]

end Sys2Proof.Machine

namespace Sys2Proof.Proofs

open Sys2Proof.Machine

/-- Settles O39: the words are the instructions' rows, and each meaning is one write-back of an ALU
operation on the old operand. -/
theorem shiftsMoveByOneBit : Obligations.ShiftsMoveByOneBit := by
  refine ⟨fun w =>
      ⟨(decodeWord_eq_row_iff w (.shr 0 0)).2, (decodeWord_eq_row_iff w (.shl 0 0)).2,
        (decodeWord_eq_row_iff w (.ror 0 0)).2, (decodeWord_eq_row_iff w (.rol 0 0)).2⟩,
    fun rd rm s => ⟨writesAlu_of_writeAlu ?shr, writesAlu_of_writeAlu ?shl,
      writesAlu_of_writeAlu ?ror, writesAlu_of_writeAlu ?rol⟩⟩
  case shr => rw [exec, execShr, aluShr_eq]
  case shl => rw [exec, execShl, aluShl_eq]
  case ror => rw [exec, execRor, aluRor_eq]
  case rol => rw [exec, execRol, aluRol_eq]

/-- Settles O40: the second instruction rotates the first one's result, and the rotates of the ALU
undo each other. -/
theorem rotatesAreInverse : Obligations.RotatesAreInverse :=
  ⟨fun rd _ s =>
    ⟨⟨_, _, rfl, rfl, (writeAlu_writeAlu_getReg rd _ aluRor s).trans (aluRor_aluRol _)⟩,
      ⟨_, _, rfl, rfl, (writeAlu_writeAlu_getReg rd _ aluRol s).trans (aluRol_aluRor _)⟩⟩,
    fun a => ⟨aluRol_iterate_sixteen a, aluRor_iterate_sixteen a⟩⟩

end Sys2Proof.Proofs
end

section
/-! # No step ends in a fault or a refusal (60_exceptions.md R250) -/

namespace Sys2Proof.Machine

/-- A step answers a next state in each case of 40_engine_cycle.md R118; from Halted it is the same
state, the model's choice (log entry 7). -/
theorem step_next (s : State) : ∃ t, step s = .next t := by
  cases hrun : s.run with
  | halted r => exact ⟨s, step_of_halted hrun⟩
  | running =>
    rcases Nat.lt_or_ge s.pc.toNat 0x0800 with hinside | houtside
    · obtain ⟨u, hu⟩ := exec_next (decodeWord (fetchWord s)) (s.setIr (fetchWord s))
      exact ⟨advancePc u, step_of_exec ⟨hrun, hinside⟩ hu⟩
    · exact ⟨boundaryHalt s, step_of_outside hrun houtside⟩

end Sys2Proof.Machine

namespace Sys2Proof.Proofs

open Sys2Proof.Machine

/-- Settles O12: exec answers by its cases over the instruction, step by the engine's. -/
theorem everyInstructionAndStepCompletes : Obligations.EveryInstructionAndStepCompletes :=
  ⟨exec_next, step_next⟩

end Sys2Proof.Proofs
end

section
/-! # Reset and load (70_reset_and_hazards.md)

The invariant begins at reset, each conjunct on its own; a load is two images written into empty
memories, so each word is that of an entry or the fill. -/

namespace Sys2Proof.Machine

/-! ## Reset (R281) -/

/-- The invariant's window and the empty stack rest on decision D4, sp = STACK_TOP. -/
theorem reset_sp : State.reset.sp = 0x8200#16 := rfl

/-- At reset the engine is Running and pc is 0, inside program memory. -/
theorem reset_fetches : Fetches State.reset := ⟨rfl, by decide⟩

/-- With nothing loaded the first fetch reads the fill of program memory, the sentinel (R285). -/
theorem reset_fetchWord : fetchWord State.reset = 0xFFFF#16 := reset_wordAt .pm _

theorem reset_stackPointerInWindow : StackPointerInWindow State.reset := by
  rw [StackPointerInWindow, reset_sp]
  decide

theorem reset_memoriesCanonical : MemoriesCanonical State.reset :=
  ⟨reset_memories_wf .pm, reset_memories_wf .dm, reset_memories_wf .stk⟩

theorem reset_oddSlotsZero : OddSlotsZero State.reset := fun _ _ => reset_wordAt .stk _

/-- At reset the engine is Running, so there is no reason to show. -/
theorem reset_haltReasonHolds : HaltReasonHolds State.reset := ⟨nofun, nofun⟩

/-- At reset there is no record to speak of. -/
theorem reset_reportsAreReachable : ReportsAreReachable State.reset := ⟨nofun, nofun⟩

/-! ## The load (R284) -/

/-- All that a load can answer: both images fit, and each is written into an empty memory. -/
theorem load_eq_some {program data : List (Nat × Word)} {s t : State}
    (h : s.load program data = some t) :
    imageFits 1024 (programIndices program) = true ∧ imageFits 256 data = true ∧
      t = { s with pm := writeImage .pm (programIndices program) [],
                   dm := writeImage .dm data [] } := by
  rw [State.load, Option.ite_none_right_eq_some] at h
  obtain ⟨hfits, ht⟩ := h
  simp only [Bool.and_eq_true, hw_pmWords, hw_dmWords] at hfits
  obtain ⟨⟨-, hprogram⟩, hdata⟩ := hfits
  exact ⟨hprogram, hdata, (Option.some.inj ht).symm⟩

theorem imageFits_nodup {words : Nat} {image : List (Nat × Word)}
    (h : imageFits words image = true) : (image.map fun e => e.1).Nodup := by
  rw [imageFits, Bool.and_eq_true, decide_eq_true_iff] at h
  exact h.2

/-- A word that no entry names holds the fill (20_memory.md R51, R56). -/
theorem writeImage_nil_other (sp : Space) {image : List (Nat × Word)} {i : Nat}
    (h : ∀ e ∈ image, e.1 ≠ i) : Memory.readWord sp (writeImage sp image []) i = sp.fill := by
  rw [writeImage_other sp image [] i h, Memory.readWord_nil]

/-- An entry at a byte address is an entry of the image at the index of its word. -/
theorem mem_programIndices {program : List (Nat × Word)} {e : Nat × Word} (he : e ∈ program) :
    (e.1 / 2, e.2) ∈ programIndices program :=
  List.mem_map_of_mem he

theorem programIndices_ne {program : List (Nat × Word)} {i : Nat}
    (h : ∀ e ∈ program, e.1 / 2 ≠ i) : ∀ e ∈ programIndices program, e.1 ≠ i :=
  List.forall_mem_map.2 h

end Sys2Proof.Machine

namespace Sys2Proof.Proofs

open Sys2Proof.Machine

/-- Settles O4: no two entries of an image name one word, so each entry is read back, and the words
that none names are those of an empty memory. -/
theorem loadPlacesImageAndFillsRest : Obligations.LoadPlacesImageAndFillsRest := by
  intro program data s t h
  obtain ⟨hprogram, hdata, rfl⟩ := load_eq_some h
  refine ⟨fun e he => ?programNamed, fun i hi => ?programRest, fun e he => ?dataNamed,
    fun i hi => ?dataRest, fun _ => rfl, fun _ => rfl, rfl, rfl, rfl, rfl, rfl, rfl⟩
  case programNamed =>
    exact writeImage_mem .pm _ [] (imageFits_nodup hprogram) (e.1 / 2, e.2) (mem_programIndices he)
  case programRest => exact writeImage_nil_other .pm (programIndices_ne hi)
  case dataNamed => exact writeImage_mem .dm data [] (imageFits_nodup hdata) e he
  case dataRest => exact writeImage_nil_other .dm hi

/-- Settles O3: the first fetch reads the sentinel, so the step is the sentinel halt. -/
theorem unloadedResetHaltsAtOnce : Obligations.UnloadedResetHaltsAtOnce :=
  ⟨_, step_of_sentinel reset_fetches reset_fetchWord, sentinelHalted_sentinelHalt _⟩

/-- Settles O50, conjunct by conjunct. -/
theorem invariantHoldsAtReset : Obligations.InvariantHoldsAtReset :=
  ⟨reset_stackPointerInWindow, reset_memoriesCanonical, reset_oddSlotsZero, reset_haltReasonHolds,
    reset_reportsAreReachable⟩

/-- Settles O2: sp = STACK_TOP is the one sp of the window that has no live word above it. -/
theorem resetStackIsEmptyAtTop : Obligations.ResetStackIsEmptyAtTop := by
  refine ⟨reset_sp, (liveStack_eq_nil_iff reset_stackPointerInWindow).2 ?_, ?_, ?_⟩
  · rw [reset_sp]
    decide
  · rw [← Bool.not_eq_true, popAllowed_iff, reset_sp]
    decide
  · rw [pushAllowed_iff, reset_sp]
    decide

end Sys2Proof.Proofs
end
